-- ==== Sys2Proof/Word.lean ====
section
/-! DEFINITION. The bit vectors of the machine: 8-bit bytes and registers (10_state.md R20), 16-bit
words for opcodes, `I`, `pc` and stack slots (R23, R28, R31), 12-bit address literals (30_encoding.md R73). -/

namespace Sys2Proof

/-- An 8-bit value: a general register, a timer, a byte of memory (10_state.md R20, R29, R30, R37). -/
abbrev Byte := BitVec 8

/-- A 16-bit value: an opcode, `I`, `pc`, a stack slot (30_encoding.md R70; 10_state.md R23, R28, R31). -/
abbrev Word := BitVec 16

/-- A 12-bit address literal `nnn` (30_encoding.md R73). -/
abbrev Addr := BitVec 12

/-- `zext_16` of 00_scope.md R7: the only extension the machine has. -/
abbrev zext16 {w : Nat} (v : BitVec w) : Word := v.setWidth 16

end Sys2Proof
end

