-- ==== Sys2Proof/Syntax.lean ====
section
/-! DEFINITION. The instructions: one constructor per row of spec/opcode_table.json, in the table's order
(30_encoding.md R77). -/

namespace Sys2Proof

/-- A register number 0 to 15 (30_encoding.md R73: every value of a register field names a register). -/
abbrev Reg := Fin 16

/-- `VF` is register number 15 (10_state.md R21). -/
abbrev Reg.VF : Reg := 15

/-- The nibble operand of DRW, a count 0 to 15 (30_encoding.md R73). -/
abbrev Nibble := Fin 16

/-- The 35 instructions (30_encoding.md R77). `shr` and `shl` carry no `y`: the field is ignored and is no operand
(41_load_arith.md R129, R131). -/
inductive Instr where
  /-- Row 1, `CLS`, 00E0. -/
  | cls
  /-- Row 2, `RET`, 00EE. -/
  | ret
  /-- Row 3, `SYS addr`, 0nnn. -/
  | sys (nnn : Addr)
  /-- Row 4, `JP addr`, 1nnn. -/
  | jp (nnn : Addr)
  /-- Row 5, `CALL addr`, 2nnn. -/
  | call (nnn : Addr)
  /-- Row 6, `SE Vx, byte`, 3xkk. -/
  | seByte (x : Reg) (kk : Byte)
  /-- Row 7, `SNE Vx, byte`, 4xkk. -/
  | sneByte (x : Reg) (kk : Byte)
  /-- Row 8, `SE Vx, Vy`, 5xy0. -/
  | seReg (x y : Reg)
  /-- Row 9, `LD Vx, byte`, 6xkk. -/
  | ldByte (x : Reg) (kk : Byte)
  /-- Row 10, `ADD Vx, byte`, 7xkk. -/
  | addByte (x : Reg) (kk : Byte)
  /-- Row 11, `LD Vx, Vy`, 8xy0. -/
  | ldReg (x y : Reg)
  /-- Row 12, `OR Vx, Vy`, 8xy1. -/
  | orReg (x y : Reg)
  /-- Row 13, `AND Vx, Vy`, 8xy2. -/
  | andReg (x y : Reg)
  /-- Row 14, `XOR Vx, Vy`, 8xy3. -/
  | xorReg (x y : Reg)
  /-- Row 15, `ADD Vx, Vy`, 8xy4. -/
  | addReg (x y : Reg)
  /-- Row 16, `SUB Vx, Vy`, 8xy5. -/
  | sub (x y : Reg)
  /-- Row 17, `SHR Vx`, 8xy6, any `y`. -/
  | shr (x : Reg)
  /-- Row 18, `SUBN Vx, Vy`, 8xy7. -/
  | subn (x y : Reg)
  /-- Row 19, `SHL Vx`, 8xyE, any `y`. -/
  | shl (x : Reg)
  /-- Row 20, `SNE Vx, Vy`, 9xy0. -/
  | sneReg (x y : Reg)
  /-- Row 21, `LD I, addr`, Annn. -/
  | ldI (nnn : Addr)
  /-- Row 22, `JP V0, addr`, Bnnn. -/
  | jpV0 (nnn : Addr)
  /-- Row 23, `RND Vx, byte`, Cxkk. -/
  | rnd (x : Reg) (kk : Byte)
  /-- Row 24, `DRW Vx, Vy, nibble`, Dxyn. -/
  | drw (x y : Reg) (n : Nibble)
  /-- Row 25, `SKP Vx`, Ex9E. -/
  | skp (x : Reg)
  /-- Row 26, `SKNP Vx`, ExA1. -/
  | sknp (x : Reg)
  /-- Row 27, `LD Vx, DT`, Fx07. -/
  | ldVxDT (x : Reg)
  /-- Row 28, `LD Vx, K`, Fx0A. -/
  | ldVxK (x : Reg)
  /-- Row 29, `LD DT, Vx`, Fx15. -/
  | ldDT (x : Reg)
  /-- Row 30, `LD ST, Vx`, Fx18. -/
  | ldST (x : Reg)
  /-- Row 31, `ADD I, Vx`, Fx1E. -/
  | addI (x : Reg)
  /-- Row 32, `LD F, Vx`, Fx29. -/
  | ldF (x : Reg)
  /-- Row 33, `LD B, Vx`, Fx33. -/
  | ldB (x : Reg)
  /-- Row 34, `LD [I], Vx`, Fx55. -/
  | storeRegs (x : Reg)
  /-- Row 35, `LD Vx, [I]`, Fx65. -/
  | loadRegs (x : Reg)
deriving DecidableEq, Repr

end Sys2Proof
end

