-- ==== Sys2Proof/WellFormed.lean ====
section
/-! DEFINITION. Which terms of `Instr` are instructions of the machine. Every operand type admits exactly the values
its field admits (30_encoding.md R73), so the one check is SYS: the words 00E0 and 00EE are CLS and RET, which stand
before SYS in the table (30_encoding.md R75), so no word encodes `SYS 0x0E0` or `SYS 0x0EE`. -/

namespace Sys2Proof

/-- Some word of the table decodes to `i` (30_encoding.md R75, R77, R80). -/
def Instr.wellFormed : Instr → Bool
  | .sys nnn => nnn != 0x0E0#12 && nnn != 0x0EE#12
  | .cls | .ret | .jp _ | .call _ | .seByte _ _ | .sneByte _ _ | .seReg _ _ | .ldByte _ _ | .addByte _ _
  | .ldReg _ _ | .orReg _ _ | .andReg _ _ | .xorReg _ _ | .addReg _ _ | .sub _ _ | .shr _ | .subn _ _ | .shl _
  | .sneReg _ _ | .ldI _ | .jpV0 _ | .rnd _ _ | .drw _ _ _ | .skp _ | .sknp _ | .ldVxDT _ | .ldVxK _ | .ldDT _
  | .ldST _ | .addI _ | .ldF _ | .ldB _ | .storeRegs _ | .loadRegs _ => true

end Sys2Proof
end

