-- ==== Sys2Proof/Decode.lean ====
section
/-! DEFINITION. Byte order, field extraction, the ordered pattern/mask table, the decoder over it, and the encoder
(30_encoding.md sections 1 to 4; 20_memory.md R53). -/

namespace Sys2Proof

/-! ## Byte order (20_memory.md R51, R53): the byte at the lower address is the high byte -/

/-- `MemRead(addr, 2)`: the opcode whose bytes, lower address first, are `hi` and `lo`. -/
def wordOfBytes (hi lo : Byte) : Word := hi ++ lo

/-- The byte of an opcode at the lower address, `op[15:8]`. -/
def hiByte (op : Word) : Byte := op.extractLsb' 8 8

/-- The byte of an opcode at the higher address, `op[7:0]`. -/
def loByte (op : Word) : Byte := op.extractLsb' 0 8

/-! ## Fields (00_scope.md R11, 30_encoding.md R71) -/

/-- `top = op[15:12]`. -/
def fieldTop (op : Word) : BitVec 4 := op.extractLsb' 12 4

/-- `x = op[11:8]`. -/
def fieldX (op : Word) : Reg := (op.extractLsb' 8 4).toFin

/-- `y = op[7:4]`. -/
def fieldY (op : Word) : Reg := (op.extractLsb' 4 4).toFin

/-- `n = op[3:0]`. -/
def fieldN (op : Word) : Nibble := (op.extractLsb' 0 4).toFin

/-- `kk = op[7:0]`. -/
def fieldKK (op : Word) : Byte := op.extractLsb' 0 8

/-- `nnn = op[11:0]`. -/
def fieldNNN (op : Word) : Addr := op.extractLsb' 0 12

/-- The six formats of 30_encoding.md R71, each with the instruction a row makes of the format's operands. -/
inductive Form where
  | none (i : Instr)
  | nnn (f : Addr → Instr)
  | xkk (f : Reg → Byte → Instr)
  | xy (f : Reg → Reg → Instr)
  | xyn (f : Reg → Reg → Nibble → Instr)
  | x (f : Reg → Instr)

/-- Step 8 of 30_encoding.md R76: extract the fields of the format and make the instruction. -/
def Form.build (op : Word) : Form → Instr
  | .none i => i
  | .nnn f => f (fieldNNN op)
  | .xkk f => f (fieldX op) (fieldKK op)
  | .xy f => f (fieldX op) (fieldY op)
  | .xyn f => f (fieldX op) (fieldY op) (fieldN op)
  | .x f => f (fieldX op)

/-! ## The dispatch table (30_encoding.md R74, R75, R77) -/

/-- One row of the dispatch table. -/
structure Row where
  mnemonic : String
  pattern : Word
  mask : Word
  form : Form

/-- The match rule of 30_encoding.md R74: `(op ^ pattern) & mask = 0`. -/
def Row.matches (r : Row) (op : Word) : Bool := (op ^^^ r.pattern) &&& r.mask == 0

/-- Rows 1 to 8 of 30_encoding.md R77. -/
def tableControl : List Row :=
  [ ⟨"CLS", 0x00E0, 0xFFFF, .none .cls⟩,
    ⟨"RET", 0x00EE, 0xFFFF, .none .ret⟩,
    ⟨"SYS_addr", 0x0000, 0xF000, .nnn .sys⟩,
    ⟨"JP_addr", 0x1000, 0xF000, .nnn .jp⟩,
    ⟨"CALL_addr", 0x2000, 0xF000, .nnn .call⟩,
    ⟨"SE_Vx__byte", 0x3000, 0xF000, .xkk .seByte⟩,
    ⟨"SNE_Vx__byte", 0x4000, 0xF000, .xkk .sneByte⟩,
    ⟨"SE_Vx__Vy", 0x5000, 0xF00F, .xy .seReg⟩ ]

/-- Rows 9 to 20 of 30_encoding.md R77. SHR and SHL ignore `y` (decision D9). -/
def tableArith : List Row :=
  [ ⟨"LD_Vx__byte", 0x6000, 0xF000, .xkk .ldByte⟩,
    ⟨"ADD_Vx__byte", 0x7000, 0xF000, .xkk .addByte⟩,
    ⟨"LD_Vx__Vy", 0x8000, 0xF00F, .xy .ldReg⟩,
    ⟨"OR_Vx__Vy", 0x8001, 0xF00F, .xy .orReg⟩,
    ⟨"AND_Vx__Vy", 0x8002, 0xF00F, .xy .andReg⟩,
    ⟨"XOR_Vx__Vy", 0x8003, 0xF00F, .xy .xorReg⟩,
    ⟨"ADD_Vx__Vy", 0x8004, 0xF00F, .xy .addReg⟩,
    ⟨"SUB_Vx__Vy", 0x8005, 0xF00F, .xy .sub⟩,
    ⟨"SHR_Vx", 0x8006, 0xF00F, .xy fun x _ => .shr x⟩,
    ⟨"SUBN_Vx__Vy", 0x8007, 0xF00F, .xy .subn⟩,
    ⟨"SHL_Vx", 0x800E, 0xF00F, .xy fun x _ => .shl x⟩,
    ⟨"SNE_Vx__Vy", 0x9000, 0xF00F, .xy .sneReg⟩ ]

/-- Rows 21 to 26 of 30_encoding.md R77. -/
def tableIndexDisplayKeys : List Row :=
  [ ⟨"LD_I__addr", 0xA000, 0xF000, .nnn .ldI⟩,
    ⟨"JP_V0__addr", 0xB000, 0xF000, .nnn .jpV0⟩,
    ⟨"RND_Vx__byte", 0xC000, 0xF000, .xkk .rnd⟩,
    ⟨"DRW_Vx__Vy__nibble", 0xD000, 0xF000, .xyn .drw⟩,
    ⟨"SKP_Vx", 0xE09E, 0xF0FF, .x .skp⟩,
    ⟨"SKNP_Vx", 0xE0A1, 0xF0FF, .x .sknp⟩ ]

/-- Rows 27 to 35 of 30_encoding.md R77. -/
def tableF : List Row :=
  [ ⟨"LD_Vx__DT", 0xF007, 0xF0FF, .x .ldVxDT⟩,
    ⟨"LD_Vx__K", 0xF00A, 0xF0FF, .x .ldVxK⟩,
    ⟨"LD_DT__Vx", 0xF015, 0xF0FF, .x .ldDT⟩,
    ⟨"LD_ST__Vx", 0xF018, 0xF0FF, .x .ldST⟩,
    ⟨"ADD_I__Vx", 0xF01E, 0xF0FF, .x .addI⟩,
    ⟨"LD_F__Vx", 0xF029, 0xF0FF, .x .ldF⟩,
    ⟨"LD_B__Vx", 0xF033, 0xF0FF, .x .ldB⟩,
    ⟨"LD__I___Vx", 0xF055, 0xF0FF, .x .storeRegs⟩,
    ⟨"LD_Vx___I", 0xF065, 0xF0FF, .x .loadRegs⟩ ]

/-- The dispatch table of 30_encoding.md R77, in its order. -/
def table : List Row := tableControl ++ tableArith ++ tableIndexDisplayKeys ++ tableF

/-! ## The decoder -/

/-- Why a sequence of bytes is no instruction. -/
inductive Reject where
  /-- The opcode matches no row (30_encoding.md R79): no error of the machine, which moves on to the next word. -/
  | illegalOpcode (op : Word)
  /-- Fewer than the two bytes of an instruction (30_encoding.md R70). -/
  | truncated (length : Nat)
deriving DecidableEq, Repr

/-- The first row of the table, in order, that matches (30_encoding.md R75). -/
def findRow (op : Word) : Option Row := table.find? (Row.matches · op)

/-- Steps 6 to 8 of 30_encoding.md R76. -/
def decodeWord (op : Word) : Except Reject Instr :=
  match findRow op with
  | some r => .ok (r.form.build op)
  | none => .error (.illegalOpcode op)

/-- The decoder on bytes in address order: one instruction and the bytes after it. -/
def decode : List Byte → Except Reject (Instr × List Byte)
  | hi :: lo :: rest =>
    match decodeWord (wordOfBytes hi lo) with
    | .ok i => .ok (i, rest)
    | .error e => .error e
  | [_] => .error (.truncated 1)
  | [] => .error (.truncated 0)

/-! ## The encoder (30_encoding.md R77: pattern with the operand fields in their places) -/

/-- A register or nibble operand as its 4 bits. -/
def nibbleBits (r : Fin 16) : BitVec 4 := BitVec.ofFin r

/-- `x` in bits 11..8. -/
def placeX (x : Reg) : Word := zext16 (nibbleBits x) <<< 8

/-- `y` in bits 7..4. -/
def placeY (y : Reg) : Word := zext16 (nibbleBits y) <<< 4

/-- `n` in bits 3..0. -/
def placeN (n : Nibble) : Word := zext16 (nibbleBits n)

/-- The word of an instruction. SHR and SHL are encoded with `y = 0`, as the assembler does (41_load_arith.md R129,
R131). -/
def encode : Instr → Word
  | .cls => 0x00E0
  | .ret => 0x00EE
  | .sys nnn => 0x0000 ||| zext16 nnn
  | .jp nnn => 0x1000 ||| zext16 nnn
  | .call nnn => 0x2000 ||| zext16 nnn
  | .seByte x kk => 0x3000 ||| placeX x ||| zext16 kk
  | .sneByte x kk => 0x4000 ||| placeX x ||| zext16 kk
  | .seReg x y => 0x5000 ||| placeX x ||| placeY y
  | .ldByte x kk => 0x6000 ||| placeX x ||| zext16 kk
  | .addByte x kk => 0x7000 ||| placeX x ||| zext16 kk
  | .ldReg x y => 0x8000 ||| placeX x ||| placeY y
  | .orReg x y => 0x8001 ||| placeX x ||| placeY y
  | .andReg x y => 0x8002 ||| placeX x ||| placeY y
  | .xorReg x y => 0x8003 ||| placeX x ||| placeY y
  | .addReg x y => 0x8004 ||| placeX x ||| placeY y
  | .sub x y => 0x8005 ||| placeX x ||| placeY y
  | .shr x => 0x8006 ||| placeX x
  | .subn x y => 0x8007 ||| placeX x ||| placeY y
  | .shl x => 0x800E ||| placeX x
  | .sneReg x y => 0x9000 ||| placeX x ||| placeY y
  | .ldI nnn => 0xA000 ||| zext16 nnn
  | .jpV0 nnn => 0xB000 ||| zext16 nnn
  | .rnd x kk => 0xC000 ||| placeX x ||| zext16 kk
  | .drw x y n => 0xD000 ||| placeX x ||| placeY y ||| placeN n
  | .skp x => 0xE09E ||| placeX x
  | .sknp x => 0xE0A1 ||| placeX x
  | .ldVxDT x => 0xF007 ||| placeX x
  | .ldVxK x => 0xF00A ||| placeX x
  | .ldDT x => 0xF015 ||| placeX x
  | .ldST x => 0xF018 ||| placeX x
  | .addI x => 0xF01E ||| placeX x
  | .ldF x => 0xF029 ||| placeX x
  | .ldB x => 0xF033 ||| placeX x
  | .storeRegs x => 0xF055 ||| placeX x
  | .loadRegs x => 0xF065 ||| placeX x

/-- An instruction as the two bytes memory holds, the high byte at the lower address (20_memory.md R53). -/
def encodeBytes (i : Instr) : List Byte := [hiByte (encode i), loByte (encode i)]

/-! ## The opcode table's numbering of bits -/

/-- The instruction word whose bits, as spec/opcode_table.json numbers them, are the low `nbits` bits of `w`, all
bits above them 0. Every row has 16 bits, so it is the first 16-bit word. -/
def tableWord (nbits w : Nat) : Word := BitVec.ofNat 16 (w % 2 ^ nbits)

/-- What the decoder reads from the bytes of `tableWord nbits w`, laid out as memory holds them. -/
def decodeTableWord (nbits w : Nat) : Option Instr :=
  match decode [hiByte (tableWord nbits w), loByte (tableWord nbits w)] with
  | .ok (i, _) => some i
  | .error _ => none

end Sys2Proof
end

