-- ==== Sys2Proof/Config.lean ====
section
/-! DEFINITION. What is fixed for the machine (00_scope.md R4), the types of the four points the spec offers as
parameters (92_eei_decisions.md, "Open parameters"), and the one free value (RND's random byte). The values this
hardware takes for the four parameters stand in Machine/Params.lean. -/

namespace Sys2Proof.Config

/-- `MEMSIZE` of 00_scope.md R4. -/
abbrev memSize : Nat := 4096

/-- `LOAD_ADDR` of 00_scope.md R4: where the image goes and where `pc` starts. -/
abbrev loadAddr : Nat := 0x200

/-- `MAX_IMAGE` of 00_scope.md R4: 4096 minus 0x200 (decision D19). -/
abbrev maxImage : Nat := 3584

/-- The last address an instruction can be fetched from (10_state.md R25: both of its bytes are in memory). -/
abbrev lastFetch : Nat := 0xFFE

/-- `draw8` of 00_scope.md R10: the byte RND draws, as a FREE VALUE. It has no body, so nothing about its values can
be proved; applied to the counter `draws` of the state it gives each execution a byte of its own.
DESIGN CHOICE (the form; 41_load_arith.md R132, decision D16; log 10). -/
opaque drawByte : Nat → Byte

end Sys2Proof.Config

namespace Sys2Proof.Machine

/-- `OOB_POLICY` (decision D5): what a data access above 0xFFF does. -/
inductive OobPolicy where
  /-- The access raises `MemBoundsFault` before anything moves (20_memory.md R58). -/
  | fault
  /-- Every data address is taken modulo 4096. -/
  | wrap4096
deriving DecidableEq, Repr

/-- `VF_ORDER` (decision D8): how SUB, SUBN, SHR and SHL order the flag write and the result write. -/
inductive VfOrder where
  /-- The flag is written first and the operation reads the registers again (41_load_arith.md R128). -/
  | sequential
  /-- Both values come from the old registers; the result is written first, the flag last. -/
  | latched
deriving DecidableEq, Repr

/-- `FONT_INDEX_MASK` (decision D14): whether `LD F, Vx` masks `V[x]`. -/
inductive FontIndexMask where
  /-- The full 8-bit value is multiplied by 5 (42_index_memory.md R142). -/
  | none
  /-- The low nibble is multiplied by 5. -/
  | lowNibble
deriving DecidableEq, Repr

/-- The four points 92_eei_decisions.md offers as parameters of a model. -/
structure Params where
  oob : OobPolicy
  vfOrder : VfOrder
  /-- `WAIT_HOLDS_STEP` (decision D11): `step` does nothing while the key wait is pending. -/
  waitHolds : Bool
  fontMask : FontIndexMask
deriving DecidableEq, Repr

end Sys2Proof.Machine
end

