-- ==== Sys2Proof/Machine/Framebuffer.lean ====
section
/-! DEFINITION. The framebuffer, 64 columns by 32 rows of booleans (10_state.md R36, 43_display.md R150), and the
change list between two framebuffers (10_state.md R38). -/

namespace Sys2Proof.Machine

/-- A column number 0 to 63. -/
abbrev Column := Fin 64

/-- A row number 0 to 31. -/
abbrev PixelRow := Fin 32

/-- `fb[x][y]`: column x, then row y (10_state.md R36). -/
abbrev Framebuffer := Vector (Vector Bool 32) 64

/-- One triple `(x, y, newState)` of the change list (10_state.md R38). -/
structure PixelChange where
  x : Column
  y : PixelRow
  newState : Bool
deriving DecidableEq, Repr

/-- `a mod 64` as a column (43_display.md R152). -/
def columnOf (a : Nat) : Column := Fin.ofNat 64 a

/-- `a mod 32` as a row (43_display.md R152). -/
def rowOf (a : Nat) : PixelRow := Fin.ofNat 32 a

/-- Every pixel false (43_display.md R151, 10_state.md R40). -/
def Framebuffer.clear : Framebuffer := Vector.replicate 64 (Vector.replicate 32 false)

/-- The pixel `fb[x][y]`. -/
def Framebuffer.pixel (fb : Framebuffer) (x : Column) (y : PixelRow) : Bool := fb[x.val][y.val]

/-- `fb[x][y] <- not fb[x][y]` (43_display.md R152). -/
def Framebuffer.flip (fb : Framebuffer) (x : Column) (y : PixelRow) : Framebuffer :=
  fb.set x.val (fb[x.val].set y.val (!fb.pixel x y))

/-- The changed pixels of one column, from row `y` on. -/
def columnChanges (x y : Nat) : List Bool → List Bool → List PixelChange
  | a :: before, b :: after =>
    if a = b then columnChanges x (y + 1) before after
    else ⟨columnOf x, rowOf y, b⟩ :: columnChanges x (y + 1) before after
  | _, _ => []

/-- The changed pixels from column `x` on. -/
def changesFrom (x : Nat) : List (Vector Bool 32) → List (Vector Bool 32) → List PixelChange
  | a :: before, b :: after => columnChanges x 0 a.toList b.toList ++ changesFrom (x + 1) before after
  | _, _ => []

/-- The set of triples `(x, y, after[x][y])` over the pixels with `after[x][y] != before[x][y]` (10_state.md R38), as
a list without repeats. The spec leaves the order open; it is column by column here, so that equal sets are equal
data. DESIGN CHOICE (the order; log 12). -/
def Framebuffer.changes (before after : Framebuffer) : List PixelChange := changesFrom 0 before.toList after.toList

end Sys2Proof.Machine
end

