-- ==== Sys2Proof/Machine/Font.lean ====
section
/-! DEFINITION. The font: 16 glyphs of 5 bytes each, glyph d at address 5 * d (20_memory.md R57). The spec takes the
bytes from general knowledge of CHIP-8 (decision D20, G4, log 4). -/

namespace Sys2Proof.Machine

/-- Glyphs 0 to 7 of 20_memory.md R57. -/
def fontLow : List Byte :=
  [0xF0, 0x90, 0x90, 0x90, 0xF0] ++ [0x20, 0x60, 0x20, 0x20, 0x70] ++ [0xF0, 0x10, 0xF0, 0x80, 0xF0] ++
  [0xF0, 0x10, 0xF0, 0x10, 0xF0] ++ [0x90, 0x90, 0xF0, 0x10, 0x10] ++ [0xF0, 0x80, 0xF0, 0x10, 0xF0] ++
  [0xF0, 0x80, 0xF0, 0x90, 0xF0] ++ [0xF0, 0x10, 0x20, 0x40, 0x40]

/-- Glyphs 8 to F of 20_memory.md R57. -/
def fontHigh : List Byte :=
  [0xF0, 0x90, 0xF0, 0x90, 0xF0] ++ [0xF0, 0x90, 0xF0, 0x10, 0xF0] ++ [0xF0, 0x90, 0xF0, 0x90, 0x90] ++
  [0xE0, 0x90, 0xE0, 0x90, 0xE0] ++ [0xF0, 0x80, 0x80, 0x80, 0xF0] ++ [0xE0, 0x90, 0x90, 0x90, 0xE0] ++
  [0xF0, 0x80, 0xF0, 0x80, 0xF0] ++ [0xF0, 0x80, 0xF0, 0x80, 0x80]

/-- The 80 font bytes at addresses 0 to 79 at reset (20_memory.md R57). -/
def fontBytes : List Byte := fontLow ++ fontHigh

end Sys2Proof.Machine
end

