-- ==== Sys2Proof/Machine/Memory.lean ====
section
/-! DEFINITION. The 4096 bytes of memory (20_memory.md R50) as a list of (address, byte) pairs in one canonical form,
and the byte primitives over it (R51, R52). -/

namespace Sys2Proof.Machine

/-- The bytes that differ from what an unlisted address reads as, at strictly rising addresses. -/
abbrev Memory := List Host.Cell

/-- What an address that is not listed reads as: the reset contents of memory with an empty image, the font at 0 to
79 and zero elsewhere (20_memory.md R57, 10_state.md R40; the zeros are decision D3, log 1; the font bytes D20, log 4). -/
def Memory.unlisted (a : Nat) : Byte := if a < 80 then fontBytes.getD a 0 else 0

/-- The canonical form from address `lo` up: addresses rise strictly, lie in memory, and no entry equals what its
address would read as unlisted. -/
def Memory.wfFrom (lo : Nat) : Memory → Bool
  | [] => true
  | (a, v) :: m =>
    decide (lo ≤ a) && decide (a < Config.memSize) && v != Memory.unlisted a && Memory.wfFrom (a + 1) m

/-- The canonical form. -/
def Memory.wf (m : Memory) : Bool := Memory.wfFrom 0 m

/-- `MemRead(a, 1)` (20_memory.md R51). -/
def Memory.read : Memory → Nat → Byte
  | [], a => Memory.unlisted a
  | (b, w) :: m, a => if a < b then Memory.unlisted a else if a = b then w else Memory.read m a

/-- Store `v` at `a` in a canonical list, keeping the form. -/
def Memory.put : Memory → Nat → Byte → Memory
  | [], a, v => if v = Memory.unlisted a then [] else [(a, v)]
  | (b, w) :: m, a, v =>
    if a < b then (if v = Memory.unlisted a then (b, w) :: m else (a, v) :: (b, w) :: m)
    else if a = b then (if v = Memory.unlisted a then m else (a, v) :: m)
    else (b, w) :: Memory.put m a v

/-- `MemWrite(a, 1, v)` (20_memory.md R52). R52 requires `a <= 0xFFF`, and every caller has tested it; a call that
does not meet it stores nothing. -/
def Memory.write (m : Memory) (a : Nat) (v : Byte) : Memory := if a < Config.memSize then m.put a v else m

/-- Store bytes at increasing addresses from `a` on, one `MemWrite` each (20_memory.md R52). -/
def Memory.writeBytes (m : Memory) (a : Nat) : List Byte → Memory
  | [] => m
  | v :: vs => (m.write a v).writeBytes (a + 1) vs

end Sys2Proof.Machine
end

