-- ==== Sys2Proof/Machine/Params.lean ====
section
/-! DEFINITION. The values this hardware takes for the four points the spec offers as parameters (00_scope.md R4). -/

namespace Sys2Proof.Machine

/-- This hardware: `OOB_POLICY` fault (D5, log 7), `VF_ORDER` sequential (D8, log 8), `WAIT_HOLDS_STEP` true (D11,
log 9), `FONT_INDEX_MASK` none (D14, log 11). -/
def hardware : Params := ⟨.fault, .sequential, true, .none⟩

end Sys2Proof.Machine
end

