-- ==== Sys2Proof/Machine/State.lean ====
section
/-! DEFINITION. Everything the spec gives the machine (10_state.md R20 to R38), its fault and its refusals, and the
state after reset (10_state.md R40). -/

namespace Sys2Proof.Machine

/-- The machine's state. The names are the spec's (00_scope.md R8). -/
structure State where
  /-- `V[0]` to `V[15]`, 8 bits each (10_state.md R20); `VF` is `V[15]` (R21). -/
  V : Vector Byte 16
  /-- The address register (10_state.md R28). -/
  I : Word
  /-- The program counter: the address of the instruction being executed (10_state.md R23). -/
  pc : Word
  /-- The delay timer (10_state.md R29). -/
  DT : Byte
  /-- The sound timer (10_state.md R30). -/
  ST : Byte
  /-- The stack pointer, the number of the next free slot (10_state.md R32). -/
  sp : BitVec 4
  /-- The call stack, which is no part of memory (10_state.md R31). -/
  stack : Vector Word 16
  /-- The key-wait flag, the source's `waitingForKey` (10_state.md R33). -/
  waiting : Bool
  /-- The key-wait target `wait_target` (10_state.md R33). -/
  waitTarget : Reg
  /-- The sticky fault bit (10_state.md R34). -/
  fault : Bool
  /-- The pressed-key set, one Bool per key code (10_state.md R35). -/
  keys : Vector Bool 16
  /-- The framebuffer (10_state.md R36). -/
  fb : Framebuffer
  /-- The 4096 bytes of memory (10_state.md R37). -/
  mem : Memory
  /-- The change list the last `step` exposed, an output (10_state.md R38). -/
  changes : List PixelChange
  /-- What the last `step` returned, an output (30_encoding.md R76, 10_state.md R42). -/
  stepResult : Bool
  /-- THE MODEL'S OWN, not the spec's: how many bytes RND has drawn; the argument of the free value
  `Config.drawByte` (41_load_arith.md R132, log 10). -/
  draws : Nat
deriving DecidableEq, Repr

/-- The one fault of the machine. -/
inductive Fault where
  /-- `MemBoundsFault` (60_exceptions.md R171): a data access at `addr`, above 0xFFF. Raised by DRW, `LD B, Vx`,
  `LD [I], Vx` and `LD Vx, [I]` through `rangeTest`; the operation `raise` takes it, so that the instruction ANSWERS A
  NEXT STATE with `fault` true and nothing else changed. No step ends in it: exact, as the spec describes it. The
  address is R171's diagnostic argument and is stored nowhere. -/
  | memBounds (addr : Nat)
deriving DecidableEq, Repr

/-- What has no transition. No instruction and no step answers one of these. -/
inductive Refusal where
  /-- An instruction with no meaning yet; raised by no arm of this model. Safe. -/
  | notModelled (mnemonic : String)
  /-- A key event with a code above 15, raised by `keyDown` and `keyUp`: "A call with c outside 0 to 15 is outside
  the interface contract and has no transition" (60_exceptions.md R175, R176). Safe (log 13). -/
  | keyCodeOutOfRange (code : Nat)
  /-- An image above 3584 bytes, raised by `construct`: "a longer image is refused and no machine is constructed"
  (20_memory.md R66). Safe (log 3). -/
  | imageTooLong (length : Nat)
deriving DecidableEq, Repr

/-- What an instruction, a step or a host event answers. -/
abbrev Result := Host.Outcome State Fault Refusal

/-- The machine right after its construction from an image of no bytes, which 20_memory.md R66 allows: `pc` at 0x200,
the font at 0, everything else zero, false or empty (10_state.md R40). The zeros are the spec's decision D3 (log 1);
`stepResult` and `draws` are DESIGN CHOICE (log 14, log 10). -/
def State.reset : State where
  V := Vector.replicate 16 0
  I := 0
  pc := BitVec.ofNat 16 Config.loadAddr
  DT := 0
  ST := 0
  sp := 0
  stack := Vector.replicate 16 0
  waiting := false
  waitTarget := 0
  fault := false
  keys := Vector.replicate 16 false
  fb := Framebuffer.clear
  mem := []
  changes := []
  stepResult := true
  draws := 0

end Sys2Proof.Machine
end

