-- ==== Sys2Proof/Machine/Ops.lean ====
section
/-! DEFINITION. The named operations over the state: registers, `pc`, the stack, memory, keys, taking the one
exception, and what `step` does around an instruction. -/

namespace Sys2Proof.Machine

namespace State

/-! ## General registers (10_state.md R20: none is hardwired) -/

/-- `V[x]`. -/
def reg (s : State) (x : Reg) : Byte := s.V[x.val]

/-- `V[x] <- v`. -/
def setReg (s : State) (x : Reg) (v : Byte) : State := { s with V := s.V.set x.val v }

/-! ## The program counter (10_state.md R23, R24) -/

/-- `nextpc`, the address after the instruction at `pc` (00_scope.md R10, 30_encoding.md R70). -/
def nextpc (s : State) : Word := s.pc + 2

/-- `pc <- nextpc`: how an instruction that transfers no control ends (10_state.md R24). -/
def advance (s : State) : State := { s with pc := s.nextpc }

/-- `pc <- target` (40_control_flow.md R100: not aligned, masked or range checked). -/
def jump (s : State) (target : Word) : State := { s with pc := target }

/-! ## The call stack (10_state.md R31, R32) -/

/-- `stack[k]`. -/
def slot (s : State) (k : BitVec 4) : Word := s.stack[k.toNat]'k.isLt

/-- `stack[sp] <- v`, then `sp <- (sp + 1) mod 16` (40_control_flow.md R104). -/
def push (s : State) (v : Word) : State :=
  { s with stack := s.stack.set s.sp.toNat v s.sp.isLt, sp := s.sp + 1 }

/-- `sp <- (sp - 1) mod 16`, then `pc <- stack[sp]`; the slot is not cleared (40_control_flow.md R102). -/
def popPc (s : State) : State := { s with sp := s.sp - 1, pc := s.slot (s.sp - 1) }

/-! ## Memory (20_memory.md) -/

/-- `mem[a]`. -/
def readByte (s : State) (a : Nat) : Byte := s.mem.read a

/-- The big-endian word at `a` and `a + 1` (20_memory.md R51, R53). -/
def readWord (s : State) (a : Nat) : Word := wordOfBytes (s.readByte a) (s.readByte (a + 1))

/-- Step 5 of 30_encoding.md R76: the opcode at `pc`. -/
def fetch (s : State) : Word := s.readWord s.pc.toNat

/-! ## Keys (10_state.md R35) -/

/-- The code is a member of `keys`; a code above 15 never is (44_keyboard_timers.md R160). -/
def pressed (s : State) (code : Byte) : Bool := if h : code.toNat < 16 then s.keys[code.toNat] else false

end State

/-! ## Taking the exception (60_exceptions.md R171, R181) -/

/-- `raise` of 00_scope.md R10: `fault <- true`, nothing else changes, `pc` stays at the faulting instruction. There
is no vector, no saved register and no mode (60_exceptions.md R181); there is no return from it (R182). -/
def raise (_reason : Fault) (s : State) : Result := .next { s with fault := true }

/-! ## What `step` does around an instruction (30_encoding.md R76) -/

/-- Both bytes of an instruction at `pc` are in memory (10_state.md R25). -/
def State.pcInMemory (s : State) : Bool := decide (s.pc.toNat ≤ Config.lastFetch)

/-- A call of `step` that executes nothing and returns `result`: an empty change list, no state change
(30_encoding.md R76 steps 2, 3, 4). -/
def State.idle (s : State) (result : Bool) : State := { s with changes := [], stepResult := result }

/-- The end of a `step` that ran an instruction: the change list against the framebuffer `before` the step
(10_state.md R38), and true unless the instruction faulted (30_encoding.md R76 step 10). -/
def State.finish (before : Framebuffer) (s : State) : State :=
  { s with changes := Framebuffer.changes before s.fb, stepResult := !s.fault }

/-- The outcome of a `step` that ran an instruction. -/
def finishOutcome (before : Framebuffer) : Result → Result
  | .next s => .next (s.finish before)
  | .fault r => .fault r
  | .refused r => .refused r

/-- An opcode that matches no row: `pc <- pc + 2` and nothing else (30_encoding.md R79). -/
def execIllegal (s : State) : Result := .next s.advance

/-- Steps 6 to 9 of 30_encoding.md R76 on a fetched opcode, `meaning` being what an instruction does. -/
def runOpcode (meaning : Instr → State → Result) (op : Word) (s : State) : Result :=
  match decodeWord op with
  | .ok i => meaning i s
  | .error _ => execIllegal s

/-- The cycle of 30_encoding.md R76: faulted, halted and held are tested in this order before the fetch
(60_exceptions.md R180, decision D30). `holds` is the value of `WAIT_HOLDS_STEP`. -/
def cycle (meaning : Instr → State → Result) (holds : Bool) (s : State) : Result :=
  if s.fault then .next (s.idle false)
  else if !s.pcInMemory then .next (s.idle false)
  else if s.waiting && holds then .next (s.idle true)
  else finishOutcome s.fb (runOpcode meaning s.fetch s)

/-- Where the next fetch takes place once nothing keeps the machine from fetching: at `pc`, or at the load address
when `pc` is out of memory. -/
def State.fetchPlace (s : State) : Word := if s.pcInMemory then s.pc else BitVec.ofNat 16 Config.loadAddr

/-- The machine made ready to fetch the opcode `op` next: the word at the fetch's place, high byte first
(20_memory.md R53), no fault and no wait. -/
def State.readyToFetch (s : State) (op : Word) : State :=
  { s with
    fault := false
    waiting := false
    pc := s.fetchPlace
    mem := s.mem.writeBytes s.fetchPlace.toNat [hiByte op, loByte op] }

end Sys2Proof.Machine
end

