-- ==== Sys2Proof/Machine/Operands.lean ====
section
/-! DEFINITION. The operand forms: jump targets, skips, the `I + k` addressing mode with its range test, the register
list of the block transfers, the sprite (40_control_flow.md R100, 42_index_memory.md R139, 20_memory.md R58,
43_display.md R150). -/

namespace Sys2Proof.Machine

/-! ## Transfers of control -/

/-- A conditional skip: `pc + 4` when the condition holds, else `nextpc` (40_control_flow.md R106). -/
def skipIf (condition : Bool) (s : State) : State := if condition then s.jump (s.pc + 4) else s.advance

/-! ## Data addresses -/

/-- The address of the k-th byte of an access, an unbounded integer (42_index_memory.md R139). -/
def State.dataAddr (s : State) (k : Nat) : Nat := s.I.toNat + k

/-- Where an access at `a` lands: at `a`, or modulo 4096 under the other value of `OOB_POLICY` (decision D5). -/
def landing (p : OobPolicy) (a : Nat) : Nat :=
  match p with
  | .fault => a
  | .wrap4096 => a % Config.memSize

/-- The one range test of an access, on its last address, before any byte moves (20_memory.md R58). -/
def rangeTest (p : OobPolicy) (last : Nat) : Except Fault Unit :=
  match p with
  | .fault => if last ≤ 0xFFF then .ok () else .error (.memBounds last)
  | .wrap4096 => .ok ()

/-- Test the last address, then either raise or answer `done`. -/
def ifInRange (p : OobPolicy) (last : Nat) (s : State) (done : State) : Result :=
  match rangeTest p last with
  | .ok _ => .next done
  | .error f => raise f s

/-- Store bytes at `I`, `I + 1`, ... in increasing order (20_memory.md R52, R55). -/
def storeFrom (p : OobPolicy) (a : Nat) (m : Memory) : List Byte → Memory
  | [] => m
  | v :: vs => storeFrom p (a + 1) (m.write (landing p a) v) vs

/-- The registers 0 to 15 in increasing order. -/
def allRegs : List Reg := [0, 1, 2, 3, 4, 5, 6, 7, 8, 9, 10, 11, 12, 13, 14, 15]

/-- The registers 0 to x inclusive, in increasing order (42_index_memory.md R144, R145). -/
def regsUpTo (x : Reg) : List Reg := allRegs.take (x.val + 1)

/-- `V[k] <- MemRead(I + k, 1)` for each register k of the list, in order (42_index_memory.md R145). -/
def loadEach (p : OobPolicy) (s : State) (ks : List Reg) : State :=
  ks.foldl (fun t k => t.setReg k (t.readByte (landing p (t.dataAddr k.val)))) s

/-! ## Digits and the font -/

/-- The decimal digits of a register, hundreds first (42_index_memory.md R143, decision D21). -/
def decimalDigits (v : Byte) : List Byte :=
  [BitVec.ofNat 8 (v.toNat / 100), BitVec.ofNat 8 (v.toNat / 10 % 10), BitVec.ofNat 8 (v.toNat % 10)]

/-- The glyph index `LD F, Vx` takes from `V[x]` (decision D14). -/
def glyphIndex (m : FontIndexMask) (v : Byte) : Byte :=
  match m with
  | .none => v
  | .lowNibble => v &&& 0x0F

/-! ## Sprites (43_display.md R150, R152) -/

/-- The `n` bytes of the sprite at `I`, row 0 first. -/
def State.spriteBytes (p : OobPolicy) (s : State) (n : Nibble) : List Byte :=
  (List.range n.val).map fun r => s.readByte (landing p (s.dataAddr r))

/-- Bit `7 - c` of a sprite byte: sprite column c, the most significant bit leftmost (43_display.md R150). -/
def spriteBit (b : Byte) (c : Nat) : Bool := b.getLsbD (7 - c)

/-- The framebuffer and the collision flag while a sprite is drawn. -/
structure Canvas where
  fb : Framebuffer
  collision : Bool
deriving DecidableEq, Repr

/-- One sprite bit at sprite row r and column c, the sprite's corner at column `x0` and row `y0`
(43_display.md R152, the body of the loops). -/
def drawBit (x0 y0 r : Nat) (b : Byte) (d : Canvas) (c : Nat) : Canvas :=
  if spriteBit b c then
    { fb := d.fb.flip (columnOf (x0 + c)) (rowOf (y0 + r)),
      collision := d.collision || d.fb.pixel (columnOf (x0 + c)) (rowOf (y0 + r)) }
  else d

/-- One sprite row: `for c from 0 to 7` (43_display.md R152). -/
def drawRow (x0 y0 r : Nat) (b : Byte) (d : Canvas) : Canvas :=
  [0, 1, 2, 3, 4, 5, 6, 7].foldl (drawBit x0 y0 r b) d

/-- The sprite rows from row r on: `for r from 0 to n - 1` (43_display.md R152). -/
def drawRows (x0 y0 : Nat) : Nat → List Byte → Canvas → Canvas
  | _, [], d => d
  | r, b :: bs, d => drawRows x0 y0 (r + 1) bs (drawRow x0 y0 r b d)

end Sys2Proof.Machine
end

