-- ==== Sys2Proof/Machine/ControlFlow.lean ====
section
/-! DEFINITION. SYS, RET, JP, CALL, JP V0, SE, SNE (40_control_flow.md R101 to R109). -/

namespace Sys2Proof.Machine

/-- `RET` (40_control_flow.md R102): no 2 is added, the saved value is already the address after the CALL. -/
def execRet (s : State) : Result := .next s.popPc

/-- `SYS addr` (40_control_flow.md R101): a legal no-op, its operand ignored (decision D10). -/
def execSys (_nnn : Addr) (s : State) : Result := .next s.advance

/-- `JP addr` (40_control_flow.md R103). -/
def execJp (nnn : Addr) (s : State) : Result := .next (s.jump (zext16 nnn))

/-- `CALL addr` (40_control_flow.md R104): saves `nextpc`. -/
def execCall (nnn : Addr) (s : State) : Result := .next ((s.push s.nextpc).jump (zext16 nnn))

/-- `JP V0, addr` (40_control_flow.md R105): the sum is not reduced to an address of memory. -/
def execJpV0 (nnn : Addr) (s : State) : Result := .next (s.jump (zext16 nnn + zext16 (s.reg 0)))

/-- `SE Vx, byte` (40_control_flow.md R106). -/
def execSeByte (x : Reg) (kk : Byte) (s : State) : Result := .next (skipIf (s.reg x == kk) s)

/-- `SNE Vx, byte` (40_control_flow.md R107). -/
def execSneByte (x : Reg) (kk : Byte) (s : State) : Result := .next (skipIf (s.reg x != kk) s)

/-- `SE Vx, Vy` (40_control_flow.md R108). -/
def execSeReg (x y : Reg) (s : State) : Result := .next (skipIf (s.reg x == s.reg y) s)

/-- `SNE Vx, Vy` (40_control_flow.md R109). -/
def execSneReg (x y : Reg) (s : State) : Result := .next (skipIf (s.reg x != s.reg y) s)

end Sys2Proof.Machine
end

