-- ==== Sys2Proof/Machine/Flags.lean ====
section
/-! DEFINITION. The flag computations: `VF` is written as a flag by SUB, SUBN, SHR, SHL and DRW alone
(10_state.md R27). -/

namespace Sys2Proof.Machine

/-- A flag value, 0 or 1, as the byte written to `VF`. -/
def flagByte (b : Bool) : Byte := if b then 1 else 0

/-- The flag of SUB and SUBN: the strict unsigned comparison `a > b`, 0 for equal operands (41_load_arith.md R120 (d),
R128, R130). -/
def flagGreater (a b : Byte) : Byte := flagByte (decide (a.toNat > b.toNat))

/-- The flag of SHR: bit 0 (41_load_arith.md R129). -/
def flagLowBit (a : Byte) : Byte := a &&& 1

/-- The flag of SHL: bit 7, a value 0 or 1 (41_load_arith.md R131). -/
def flagHighBit (a : Byte) : Byte := a >>> 7

/-- Write the flag to `VF` and the result to `V[x]`, each computed from a register file. This hardware writes the flag
first and computes the result from the registers as that write left them (41_load_arith.md R128, decision D8, log 8);
the other value of `VF_ORDER` computes both from the old registers and writes the flag last. -/
def flagAndResult (o : VfOrder) (x : Reg) (flag result : State → Byte) (s : State) : State :=
  match o with
  | .sequential => (s.setReg .VF (flag s)).setReg x (result (s.setReg .VF (flag s)))
  | .latched => (s.setReg x (result s)).setReg .VF (flag s)

end Sys2Proof.Machine
end

