-- ==== Sys2Proof/Machine/Display.lean ====
section
/-! DEFINITION. CLS and DRW (43_display.md R151, R152). Their change list is `step`'s (R153, Machine/Ops.lean
`State.finish`). -/

namespace Sys2Proof.Machine

/-- `CLS` (43_display.md R151). -/
def execCls (s : State) : Result := .next ({ s with fb := Framebuffer.clear }).advance

/-- The state after a DRW that passes its range test (43_display.md R152): both coordinates are read before `VF` is
written (decision D13), and `VF` is 1 if a set sprite bit landed on a set pixel, else 0. -/
def drawn (p : OobPolicy) (x y : Reg) (n : Nibble) (s : State) : State :=
  let d := drawRows (s.reg x).toNat (s.reg y).toNat 0 (s.spriteBytes p n) ⟨s.fb, false⟩
  (({ s with fb := d.fb }).setReg .VF (flagByte d.collision)).advance

/-- `DRW Vx, Vy, nibble` under either value of `OOB_POLICY` (43_display.md R152). With `n = 0` it reads nothing and
cannot fault, whatever `I` is (R152 (a)). -/
def execDrwWith (p : OobPolicy) (x y : Reg) (n : Nibble) (s : State) : Result :=
  if n.val = 0 then .next (drawn p x y n s) else ifInRange p (s.dataAddr (n.val - 1)) s (drawn p x y n s)

/-- `DRW Vx, Vy, nibble` (43_display.md R152). -/
def execDrw (x y : Reg) (n : Nibble) (s : State) : Result := execDrwWith hardware.oob x y n s

end Sys2Proof.Machine
end

