-- ==== Sys2Proof/Machine/IndexMemory.lean ====
section
/-! DEFINITION. LD I, ADD I, LD F, LD B, LD [I], LD Vx [I] (42_index_memory.md R140 to R145). No access changes `I`
(R139, decision D15). -/

namespace Sys2Proof.Machine

/-- `LD I, addr` (42_index_memory.md R140). -/
def execLdI (nnn : Addr) (s : State) : Result := .next ({ s with I := zext16 nnn }).advance

/-- `ADD I, Vx` (42_index_memory.md R141): modulo 65536, `VF` not written, no fault. -/
def execAddI (x : Reg) (s : State) : Result := .next ({ s with I := s.I + zext16 (s.reg x) }).advance

/-- `LD F, Vx` under either value of `FONT_INDEX_MASK` (42_index_memory.md R142). -/
def execLdFWith (m : FontIndexMask) (x : Reg) (s : State) : Result :=
  .next ({ s with I := 5 * zext16 (glyphIndex m (s.reg x)) }).advance

/-- `LD F, Vx` (42_index_memory.md R142): the full 8-bit value times 5. -/
def execLdF (x : Reg) (s : State) : Result := execLdFWith hardware.fontMask x s

/-- `LD B, Vx` under either value of `OOB_POLICY` (42_index_memory.md R143). -/
def execLdBWith (p : OobPolicy) (x : Reg) (s : State) : Result :=
  ifInRange p (s.dataAddr 2) s
    ({ s with mem := storeFrom p (s.dataAddr 0) s.mem (decimalDigits (s.reg x)) }).advance

/-- `LD B, Vx` (42_index_memory.md R143). -/
def execLdB (x : Reg) (s : State) : Result := execLdBWith hardware.oob x s

/-- `LD [I], Vx` under either value of `OOB_POLICY` (42_index_memory.md R144). -/
def execStoreRegsWith (p : OobPolicy) (x : Reg) (s : State) : Result :=
  ifInRange p (s.dataAddr x.val) s
    ({ s with mem := storeFrom p (s.dataAddr 0) s.mem ((regsUpTo x).map s.reg) }).advance

/-- `LD [I], Vx` (42_index_memory.md R144): `V[0]` to `V[x]` inclusive. -/
def execStoreRegs (x : Reg) (s : State) : Result := execStoreRegsWith hardware.oob x s

/-- `LD Vx, [I]` under either value of `OOB_POLICY` (42_index_memory.md R145). -/
def execLoadRegsWith (p : OobPolicy) (x : Reg) (s : State) : Result :=
  ifInRange p (s.dataAddr x.val) s (loadEach p s (regsUpTo x)).advance

/-- `LD Vx, [I]` (42_index_memory.md R145): `V[0]` to `V[x]` inclusive. -/
def execLoadRegs (x : Reg) (s : State) : Result := execLoadRegsWith hardware.oob x s

end Sys2Proof.Machine
end

