-- ==== Sys2Proof/Machine/KeyTimer.lean ====
section
/-! DEFINITION. SKP, SKNP, LD Vx K, LD Vx DT, LD DT Vx, LD ST Vx (44_keyboard_timers.md R160 to R166). -/

namespace Sys2Proof.Machine

/-- `SKP Vx` (44_keyboard_timers.md R160): the key whose code is the whole 8-bit value of `V[x]` (decision D29). -/
def execSkp (x : Reg) (s : State) : Result := .next (skipIf (s.pressed (s.reg x)) s)

/-- `SKNP Vx` (44_keyboard_timers.md R161). -/
def execSknp (x : Reg) (s : State) : Result := .next (skipIf (!s.pressed (s.reg x)) s)

/-- `LD Vx, K` (44_keyboard_timers.md R162): sets the wait; `V[x]` is written by the `keyDown` that ends it. -/
def execLdVxK (x : Reg) (s : State) : Result := .next ({ s with waiting := true, waitTarget := x }).advance

/-- `LD Vx, DT` (44_keyboard_timers.md R164). -/
def execLdVxDT (x : Reg) (s : State) : Result := .next (s.setReg x s.DT).advance

/-- `LD DT, Vx` (44_keyboard_timers.md R165). -/
def execLdDT (x : Reg) (s : State) : Result := .next ({ s with DT := s.reg x }).advance

/-- `LD ST, Vx` (44_keyboard_timers.md R166). -/
def execLdST (x : Reg) (s : State) : Result := .next ({ s with ST := s.reg x }).advance

end Sys2Proof.Machine
end

