-- ==== Sys2Proof/Machine/LoadArith.lean ====
section
/-! DEFINITION. LD, ADD, OR, AND, XOR, SUB, SHR, SUBN, SHL, RND (41_load_arith.md R121 to R132). The sum, the
difference and the shift of 8-bit vectors are the spec's modulo 256 (R120 (b)); no ADD and no logic instruction writes
`VF` as a flag (R120 (c), decision D7). -/

namespace Sys2Proof.Machine

/-- `LD Vx, byte` (41_load_arith.md R121). -/
def execLdByte (x : Reg) (kk : Byte) (s : State) : Result := .next (s.setReg x kk).advance

/-- `ADD Vx, byte` (41_load_arith.md R122). -/
def execAddByte (x : Reg) (kk : Byte) (s : State) : Result := .next (s.setReg x (s.reg x + kk)).advance

/-- `LD Vx, Vy` (41_load_arith.md R123). -/
def execLdReg (x y : Reg) (s : State) : Result := .next (s.setReg x (s.reg y)).advance

/-- `OR Vx, Vy` (41_load_arith.md R124). -/
def execOrReg (x y : Reg) (s : State) : Result := .next (s.setReg x (s.reg x ||| s.reg y)).advance

/-- `AND Vx, Vy` (41_load_arith.md R125). -/
def execAndReg (x y : Reg) (s : State) : Result := .next (s.setReg x (s.reg x &&& s.reg y)).advance

/-- `XOR Vx, Vy` (41_load_arith.md R126). -/
def execXorReg (x y : Reg) (s : State) : Result := .next (s.setReg x (s.reg x ^^^ s.reg y)).advance

/-- `ADD Vx, Vy` (41_load_arith.md R127): no carry flag. -/
def execAddReg (x y : Reg) (s : State) : Result := .next (s.setReg x (s.reg x + s.reg y)).advance

/-- `SUB Vx, Vy` under either order of the flag write (41_load_arith.md R128). -/
def execSubWith (o : VfOrder) (x y : Reg) (s : State) : Result :=
  .next (flagAndResult o x (fun t => flagGreater (t.reg x) (t.reg y)) (fun t => t.reg x - t.reg y) s).advance

/-- `SUB Vx, Vy` (41_load_arith.md R128). -/
def execSub (x y : Reg) (s : State) : Result := execSubWith hardware.vfOrder x y s

/-- `SHR Vx` under either order of the flag write (41_load_arith.md R129). -/
def execShrWith (o : VfOrder) (x : Reg) (s : State) : Result :=
  .next (flagAndResult o x (fun t => flagLowBit (t.reg x)) (fun t => t.reg x >>> 1) s).advance

/-- `SHR Vx` (41_load_arith.md R129): the operand is `V[x]` (decision D9). -/
def execShr (x : Reg) (s : State) : Result := execShrWith hardware.vfOrder x s

/-- `SUBN Vx, Vy` under either order of the flag write (41_load_arith.md R130). -/
def execSubnWith (o : VfOrder) (x y : Reg) (s : State) : Result :=
  .next (flagAndResult o x (fun t => flagGreater (t.reg y) (t.reg x)) (fun t => t.reg y - t.reg x) s).advance

/-- `SUBN Vx, Vy` (41_load_arith.md R130). -/
def execSubn (x y : Reg) (s : State) : Result := execSubnWith hardware.vfOrder x y s

/-- `SHL Vx` under either order of the flag write (41_load_arith.md R131). -/
def execShlWith (o : VfOrder) (x : Reg) (s : State) : Result :=
  .next (flagAndResult o x (fun t => flagHighBit (t.reg x)) (fun t => t.reg x <<< 1) s).advance

/-- `SHL Vx` (41_load_arith.md R131): the operand is `V[x]` (decision D9). -/
def execShl (x : Reg) (s : State) : Result := execShlWith hardware.vfOrder x s

/-- `RND Vx, byte` on a drawn byte (41_load_arith.md R132). -/
def rndWith (draw : Byte) (x : Reg) (kk : Byte) (s : State) : State := (s.setReg x (draw &&& kk)).advance

/-- `RND Vx, byte` (41_load_arith.md R132): the drawn byte is the free value `Config.drawByte` at the counter, which
moves on so that the next execution draws afresh (log 10). -/
def execRnd (x : Reg) (kk : Byte) (s : State) : Result :=
  .next { rndWith (Config.drawByte s.draws) x kk s with draws := s.draws + 1 }

end Sys2Proof.Machine
end

