-- ==== Sys2Proof/Machine/Step.lean ====
section
/-! DEFINITION. The `step` of this hardware (30_encoding.md R76). -/

namespace Sys2Proof.Machine

/-- One call of `step` (30_encoding.md R76): the cycle over `exec`, held while the key wait is pending
(44_keyboard_timers.md R163). -/
def step (s : State) : Host.Outcome State Fault Refusal := cycle exec hardware.waitHolds s

/-- The state whose next `step` fetches and runs the instruction word `w` of `nbits` bits, numbered as the opcode table
numbers them. It stands for the load of a program from outside the machine (20_memory.md R66, log 3). -/
def State.withFetchWord (s : State) (nbits w : Nat) : State := s.readyToFetch (tableWord nbits w)

end Sys2Proof.Machine
end

