-- ==== Sys2Proof/Machine/Assembly.lean ====
section
/-! DEFINITION. The text of programs (30_encoding.md section 6, R82 to R92): the assembler's operand, line and program
forms and the disassembly text. It is outside the hardware block (00_scope.md R3): no step reads any of it. -/

namespace Sys2Proof.Machine

/-- A text, as its characters. -/
abbrev Text := List Char

/-- Fold the case, for the comparisons 30_encoding.md R82 and R86 make without regard to case. -/
def foldCase (t : Text) : Text := t.map Char.toLower

/-! ## Digits -/

/-- The value of a hexadecimal digit of either case. -/
def hexDigit (c : Char) : Option Nat :=
  if '0' ≤ c ∧ c ≤ '9' then some (c.toNat - 48)
  else if 'a' ≤ c.toLower ∧ c.toLower ≤ 'f' then some (c.toLower.toNat - 87)
  else none

/-- The digits of a number in a base of at most 16, most significant first, after the value `acc` of those before. -/
def digitsFrom (base acc : Nat) : Text → Option Nat
  | [] => some acc
  | c :: cs =>
    match hexDigit c with
    | some d => if d < base then digitsFrom base (acc * base + d) cs else none
    | none => none

/-- One digit or more in the base. -/
def digits (base : Nat) : Text → Option Nat
  | [] => none
  | c :: cs => digitsFrom base 0 (c :: cs)

/-! ## Operand tokens (30_encoding.md R83 to R86) -/

/-- The operand kinds (30_encoding.md R83). -/
inductive OperandKind where
  | reg | v0 | b | f | dt | st | i | k | atI | nibble | byte | addr
deriving DecidableEq, Repr

/-- What an operand is made of: its token, or the address its label stands for (30_encoding.md R89). -/
inductive Operand where
  | token (t : Text)
  | address (a : Nat)
deriving DecidableEq, Repr

/-- The result of holding an operand against a kind (30_encoding.md R85): a value where the kind carries one, a
mismatch (try the next format), or a value out of range (fatal for the line). -/
inductive Parsed where
  | value (v : Nat)
  | keyword
  | mismatch
  | outOfRange
deriving DecidableEq, Repr

/-- `V` or `v` and hexadecimal digits that leave one digit once leading zeros are stripped (30_encoding.md R84). -/
def registerToken : Text → Option Nat
  | 'V' :: ds | 'v' :: ds =>
    match digits 16 ds with
    | some v => if v < 16 then some v else none
    | none => none
  | _ => none

/-- A numeric literal: `0x`, `0X` or `#` and hexadecimal digits, or decimal digits (30_encoding.md R85). -/
def numericToken : Text → Option Nat
  | '0' :: 'x' :: ds | '0' :: 'X' :: ds | '#' :: ds => digits 16 ds
  | ds => digits 10 ds

/-- The number an operand gives, if it gives one. -/
def Operand.number : Operand → Option Nat
  | .token t => numericToken t
  | .address a => some a

/-- Hold an operand against a numeric kind of values below `bound`; the range is tested after the prefix is resolved
(30_encoding.md R85). -/
def parseNumber (bound : Nat) (o : Operand) : Parsed :=
  match o.number with
  | some v => if v < bound then .value v else .outOfRange
  | none => .mismatch

/-- Hold an operand against a fixed keyword, given in lower case (30_encoding.md R86). -/
def parseKeyword (word : String) : Operand → Parsed
  | .token t => if foldCase t = word.toList then .keyword else .mismatch
  | .address _ => .mismatch

/-- Hold an operand against a register operand (30_encoding.md R84). -/
def parseRegister : Operand → Parsed
  | .token t =>
    match registerToken t with
    | some v => .value v
    | none => .mismatch
  | .address _ => .mismatch

/-- Hold an operand against a kind. -/
def OperandKind.parse (o : Operand) : OperandKind → Parsed
  | .reg => parseRegister o
  | .v0 => parseKeyword "v0" o
  | .b => parseKeyword "b" o
  | .f => parseKeyword "f" o
  | .dt => parseKeyword "dt" o
  | .st => parseKeyword "st" o
  | .i => parseKeyword "i" o
  | .k => parseKeyword "k" o
  | .atI => parseKeyword "[i]" o
  | .nibble => parseNumber 0x10 o
  | .byte => parseNumber 0x100 o
  | .addr => parseNumber 0x1000 o

/-! ## Formats (30_encoding.md R87, in this spec's order: decision D25, G3) -/

/-- One format of a mnemonic: the kinds of its operands and the instruction it makes of their values. -/
structure Format where
  kinds : List OperandKind
  form : Form

/-- The formats of each mnemonic, in order. SHR and SHL take one operand (decision D9). -/
def formatTable : List (String × List Format) :=
  [ ("CLS", [⟨[], .none .cls⟩]),
    ("RET", [⟨[], .none .ret⟩]),
    ("SYS", [⟨[.addr], .nnn .sys⟩]),
    ("JP", [⟨[.addr], .nnn .jp⟩, ⟨[.v0, .addr], .nnn .jpV0⟩]),
    ("CALL", [⟨[.addr], .nnn .call⟩]),
    ("SE", [⟨[.reg, .reg], .xy .seReg⟩, ⟨[.reg, .byte], .xkk .seByte⟩]),
    ("SNE", [⟨[.reg, .reg], .xy .sneReg⟩, ⟨[.reg, .byte], .xkk .sneByte⟩]),
    ("LD",
      [⟨[.reg, .reg], .xy .ldReg⟩, ⟨[.reg, .byte], .xkk .ldByte⟩, ⟨[.i, .addr], .nnn .ldI⟩,
       ⟨[.reg, .dt], .x .ldVxDT⟩, ⟨[.reg, .k], .x .ldVxK⟩, ⟨[.dt, .reg], .x .ldDT⟩, ⟨[.st, .reg], .x .ldST⟩,
       ⟨[.f, .reg], .x .ldF⟩, ⟨[.b, .reg], .x .ldB⟩, ⟨[.atI, .reg], .x .storeRegs⟩, ⟨[.reg, .atI], .x .loadRegs⟩]),
    ("ADD", [⟨[.reg, .reg], .xy .addReg⟩, ⟨[.reg, .byte], .xkk .addByte⟩, ⟨[.i, .reg], .x .addI⟩]),
    ("OR", [⟨[.reg, .reg], .xy .orReg⟩]),
    ("AND", [⟨[.reg, .reg], .xy .andReg⟩]),
    ("XOR", [⟨[.reg, .reg], .xy .xorReg⟩]),
    ("SUB", [⟨[.reg, .reg], .xy .sub⟩]),
    ("SHR", [⟨[.reg], .x .shr⟩]),
    ("SUBN", [⟨[.reg, .reg], .xy .subn⟩]),
    ("SHL", [⟨[.reg], .x .shl⟩]),
    ("RND", [⟨[.reg, .byte], .xkk .rnd⟩]),
    ("DRW", [⟨[.reg, .reg, .nibble], .xyn .drw⟩]),
    ("SKP", [⟨[.reg], .x .skp⟩]),
    ("SKNP", [⟨[.reg], .x .sknp⟩]) ]

/-- The instruction of a form with its operands' values in the order of the text. -/
def formOfValues : Form → List Nat → Option Instr
  | .none i, [] => some i
  | .nnn f, [a] => some (f (BitVec.ofNat 12 a))
  | .xkk f, [x, kk] => some (f (Fin.ofNat 16 x) (BitVec.ofNat 8 kk))
  | .xy f, [x, y] => some (f (Fin.ofNat 16 x) (Fin.ofNat 16 y))
  | .xyn f, [x, y, n] => some (f (Fin.ofNat 16 x) (Fin.ofNat 16 y) (Fin.ofNat 16 n))
  | .x f, [x] => some (f (Fin.ofNat 16 x))
  | _, _ => none

/-- Why a program is not assembled (30_encoding.md R85, R88, R89). -/
inductive AsmError where
  | unrecognizedOpcode
  | noMatchingFormat
  | valueOutOfRange
  | duplicateName
  | malformedLine
deriving DecidableEq, Repr

/-- The values of the operands under the kinds, left to right; `none` where one mismatches or the counts differ. -/
def matchKinds : List OperandKind → List Operand → Except AsmError (Option (List Nat))
  | [], [] => .ok (some [])
  | kind :: ks, o :: os =>
    match kind.parse o with
    | .mismatch => .ok none
    | .outOfRange => .error .valueOutOfRange
    | .keyword => matchKinds ks os
    | .value v =>
      match matchKinds ks os with
      | .ok (some vs) => .ok (some (v :: vs))
      | r => r
  | _, _ => .ok none

/-- The first format that matches (30_encoding.md R87), a range violation being fatal (R88). A format of another number
of operands is passed over before any operand is read. -/
def matchFormats (os : List Operand) : List Format → Except AsmError Instr
  | [] => .error .noMatchingFormat
  | f :: fs =>
    if f.kinds.length = os.length then
      match matchKinds f.kinds os with
      | .ok (some vs) =>
        match formOfValues f.form vs with
        | some i => .ok i
        | none => .error .noMatchingFormat
      | .ok none => matchFormats os fs
      | .error e => .error e
    else matchFormats os fs

/-- The instruction of a mnemonic, in any case, and its operands (30_encoding.md R82, R87, R88). -/
def assembleInstr (mnemonic : Text) (os : List Operand) : Except AsmError Instr :=
  match formatTable.find? (fun e => foldCase e.1.toList = foldCase mnemonic) with
  | some e => matchFormats os e.2
  | none => .error .unrecognizedOpcode

/-! ## Lines (30_encoding.md R82, R89) -/

/-- A space, a tab or a carriage return. -/
def isBlank (c : Char) : Bool := c == ' ' || c == '\t' || c == '\r'

/-- A text without blanks at its ends. -/
def trim (t : Text) : Text := ((t.dropWhile isBlank).reverse.dropWhile isBlank).reverse

/-- The parts of a text between the separators. -/
def splitAt (separator : Char) : Text → List Text
  | [] => [[]]
  | c :: cs =>
    match splitAt separator cs with
    | [] => [[]]
    | p :: ps => if c = separator then [] :: p :: ps else (c :: p) :: ps

/-- A letter or an underscore. -/
def isNameStart (c : Char) : Bool := c.isAlpha || c == '_'

/-- A letter, a digit or an underscore. -/
def isNameChar (c : Char) : Bool := c.isAlphanum || c == '_'

/-- `[A-Za-z_][A-Za-z0-9_]*` (30_encoding.md R89). -/
def isName : Text → Bool
  | [] => false
  | c :: cs => isNameStart c && cs.all isNameChar

/-- A line: its label, and its directive or instruction, if it has them. -/
inductive Body where
  | empty
  | define (name value : Text)
  | instr (mnemonic : Text) (operands : List Text)
deriving DecidableEq, Repr

/-- A label, `name:` at the start of a line, and the rest of the line (30_encoding.md R89). DESIGN CHOICE (log 21): no
blank stands between the name and its colon, and a text before a colon that is no name is no label. -/
def splitLabel (t : Text) : Option Text × Text :=
  match t.span (· != ':') with
  | (name, ':' :: rest) => if isName name then (some name, trim rest) else (none, t)
  | _ => (none, t)

/-- The directive or the instruction of a line without its comment and label: a word, then what follows it. DESIGN
CHOICE (log 21): the NAME of a define has the form 30_encoding.md R89 gives for labels, and a define whose NAME has
another form, or that lacks its NAME or VALUE, is an error; the VALUE is the rest of the line. -/
def readBody (t : Text) : Except AsmError Body :=
  match t.span (fun c => !isBlank c) with
  | ([], _) => .ok .empty
  | (word, rest) =>
    if word = "define".toList then
      match (trim rest).span (fun c => !isBlank c) with
      | (name, value) => if isName name ∧ trim value ≠ [] then .ok (.define name (trim value)) else .error .malformedLine
    else if trim rest = [] then .ok (.instr word [])
    else .ok (.instr word ((splitAt ',' rest).map trim))

/-- A line: `;` begins a comment to its end, then the label, then the rest (30_encoding.md R82). DESIGN CHOICE (log 21):
blanks may stand before a label, which R89 puts "at the start of a line" and says nothing of; and a line with a define may
carry a label too, which then stands for the current address. -/
def readLine (t : Text) : Except AsmError (Option Text × Body) :=
  match splitLabel (trim (t.takeWhile (· != ';'))) with
  | (label, rest) =>
    match readBody rest with
    | .ok b => .ok (label, b)
    | .error e => .error e

/-- The lines of a program. -/
def readLines : List Text → Except AsmError (List (Option Text × Body))
  | [] => .ok []
  | t :: ts =>
    match readLine t, readLines ts with
    | .ok l, .ok ls => .ok (l :: ls)
    | .error e, _ => .error e
    | _, .error e => .error e

/-! ## The two passes (30_encoding.md R89) -/

/-- The names of a program and what they stand for. -/
abbrev Names := List (Text × Operand)

/-- Add a name; a second declaration is an error. -/
def declare (names : Names) (name : Text) (o : Operand) : Except AsmError Names :=
  if (names.lookup name).isSome then .error .duplicateName else .ok ((name, o) :: names)

/-- The first pass: a label stands for the address before its own line's instruction is counted; lines with an
instruction advance it by 2. -/
def collectNames (pc : Nat) (names : Names) : List (Option Text × Body) → Except AsmError Names
  | [] => .ok names
  | (label, body) :: ls =>
    let labelled := match label with
      | some l => declare names l (.address pc)
      | none => .ok names
    match labelled, body with
    | .error e, _ => .error e
    | .ok ns, .empty => collectNames pc ns ls
    | .ok ns, .instr _ _ => collectNames (pc + 2) ns ls
    | .ok ns, .define n v =>
      match declare ns n (.token v) with
      | .ok ns' => collectNames pc ns' ls
      | .error e => .error e

/-- An operand token, replaced where it is exactly a name (30_encoding.md R89). DESIGN CHOICE (log 21): once, so that a
define's value that is itself a name is not replaced again. -/
def resolve (names : Names) (t : Text) : Operand := (names.lookup t).getD (.token t)

/-- The second pass: two big-endian bytes for each line with an instruction (30_encoding.md R82). -/
def emit (names : Names) : List (Option Text × Body) → Except AsmError (List Byte)
  | [] => .ok []
  | (_, .instr m os) :: ls =>
    match assembleInstr m (os.map (resolve names)), emit names ls with
    | .ok i, .ok bs => .ok (encodeBytes i ++ bs)
    | .error e, _ => .error e
    | _, .error e => .error e
  | (_, .empty) :: ls | (_, .define _ _) :: ls => emit names ls

/-- Assemble a program, given line by line. Any error leaves no binary (30_encoding.md R88). DESIGN CHOICE (log 21): of
several errors the one reported is the first malformed define, else the first duplicate name, else the error of the first
line that does not assemble; R88 says nothing of which. -/
def assemble (program : List Text) : Except AsmError (List Byte) :=
  match readLines program with
  | .error e => .error e
  | .ok ls =>
    match collectNames Config.loadAddr [] ls with
    | .error e => .error e
    | .ok names => emit names ls

/-! ## Disassembly text (30_encoding.md R91, decision D24) -/

/-- The upper-case hexadecimal digit of a value below 16. -/
def hexChar (v : Nat) : Char := if v < 10 then Char.ofNat (48 + v) else Char.ofNat (55 + v)

/-- `count` upper-case hexadecimal digits. -/
def hexText : Nat → Nat → Text
  | 0, _ => []
  | count + 1, v => hexText count (v / 16) ++ [hexChar (v % 16)]

/-- A register: `V` and one digit. -/
def registerText (x : Reg) : Text := ['V', hexChar x.val]

/-- `0x` and three, two or one digits: an address, a byte, a nibble. -/
def numberText (count v : Nat) : Text := '0' :: 'x' :: hexText count v

/-- A mnemonic and its operands, separated by a comma and a space. -/
def lineText (mnemonic : String) (operands : List Text) : Text :=
  match operands with
  | [] => mnemonic.toList
  | o :: os => mnemonic.toList ++ ' ' :: o ++ os.flatMap fun p => ',' :: ' ' :: p

/-- The canonical text of an instruction. -/
def instrText : Instr → Text
  | .cls => lineText "CLS" []
  | .ret => lineText "RET" []
  | .sys a => lineText "SYS" [numberText 3 a.toNat]
  | .jp a => lineText "JP" [numberText 3 a.toNat]
  | .call a => lineText "CALL" [numberText 3 a.toNat]
  | .seByte x kk => lineText "SE" [registerText x, numberText 2 kk.toNat]
  | .sneByte x kk => lineText "SNE" [registerText x, numberText 2 kk.toNat]
  | .seReg x y => lineText "SE" [registerText x, registerText y]
  | .ldByte x kk => lineText "LD" [registerText x, numberText 2 kk.toNat]
  | .addByte x kk => lineText "ADD" [registerText x, numberText 2 kk.toNat]
  | .ldReg x y => lineText "LD" [registerText x, registerText y]
  | .orReg x y => lineText "OR" [registerText x, registerText y]
  | .andReg x y => lineText "AND" [registerText x, registerText y]
  | .xorReg x y => lineText "XOR" [registerText x, registerText y]
  | .addReg x y => lineText "ADD" [registerText x, registerText y]
  | .sub x y => lineText "SUB" [registerText x, registerText y]
  | .shr x => lineText "SHR" [registerText x]
  | .subn x y => lineText "SUBN" [registerText x, registerText y]
  | .shl x => lineText "SHL" [registerText x]
  | .sneReg x y => lineText "SNE" [registerText x, registerText y]
  | .ldI a => lineText "LD" ["I".toList, numberText 3 a.toNat]
  | .jpV0 a => lineText "JP" ["V0".toList, numberText 3 a.toNat]
  | .rnd x kk => lineText "RND" [registerText x, numberText 2 kk.toNat]
  | .drw x y n => lineText "DRW" [registerText x, registerText y, numberText 1 n.val]
  | .skp x => lineText "SKP" [registerText x]
  | .sknp x => lineText "SKNP" [registerText x]
  | .ldVxDT x => lineText "LD" [registerText x, "DT".toList]
  | .ldVxK x => lineText "LD" [registerText x, "K".toList]
  | .ldDT x => lineText "LD" ["DT".toList, registerText x]
  | .ldST x => lineText "LD" ["ST".toList, registerText x]
  | .addI x => lineText "ADD" ["I".toList, registerText x]
  | .ldF x => lineText "LD" ["F".toList, registerText x]
  | .ldB x => lineText "LD" ["B".toList, registerText x]
  | .storeRegs x => lineText "LD" ["[I]".toList, registerText x]
  | .loadRegs x => lineText "LD" [registerText x, "[I]".toList]

/-- The text of an opcode; "No match yields null" (30_encoding.md R91). -/
def opcodeText (op : Word) : Option Text :=
  match decodeWord op with
  | .ok i => some (instrText i)
  | .error _ => none

/-- The text of a binary, two bytes a line (30_encoding.md R91, R92). DESIGN CHOICE (log 21): the last byte of a binary of
odd length, which 20_memory.md R66 allows, has no line and no null; R91 says nothing of it. -/
def disassemble : List Byte → List (Option Text)
  | hi :: lo :: rest => opcodeText (wordOfBytes hi lo) :: disassemble rest
  | [_] => []
  | [] => []

end Sys2Proof.Machine
end

