-- ==== Sys2Proof/Machine/HostEvents.lean ====
section
/-! DEFINITION. What the host does to the machine besides `step`: construction from an image, the key events, the timer
tick, the diagnostic reads (60_exceptions.md R175 to R179; 70_reset_and_hazards.md R190, R196). -/

namespace Sys2Proof.Machine

/-! ## Construction (20_memory.md R66, 70_reset_and_hazards.md R190) -/

/-- Construct the machine from an image: byte k goes to `mem[0x200 + k]`. An image above 3584 bytes constructs no
machine (decision D19). -/
def construct (image : List Byte) : Result :=
  if image.length ≤ Config.maxImage then
    .next { State.reset with mem := State.reset.mem.writeBytes Config.loadAddr image }
  else .refused (.imageTooLong image.length)

/-! ## Key events (60_exceptions.md R175, R176) -/

/-- `keys <- keys with c added`, and with it the completion of a pending key wait (60_exceptions.md R175). -/
def State.keyPressed (s : State) (c : Fin 16) : State :=
  let t := { s with keys := s.keys.set c.val true }
  if t.waiting then { t.setReg t.waitTarget (BitVec.ofNat 8 c.val) with waiting := false } else t

/-- `keyDown(c)` (60_exceptions.md R175); a code above 15 has no transition (decision D18, log 13). -/
def keyDown (c : Nat) (s : State) : Result :=
  if h : c < 16 then .next (s.keyPressed ⟨c, h⟩) else .refused (.keyCodeOutOfRange c)

/-- `keyUp(c)` (60_exceptions.md R176); a code above 15 has no transition (decision D18, log 13). -/
def keyUp (c : Nat) (s : State) : Result :=
  if h : c < 16 then .next { s with keys := s.keys.set c false } else .refused (.keyCodeOutOfRange c)

/-! ## The timer tick (60_exceptions.md R177) -/

/-- A timer after one tick: down by 1, stopping at 0 (60_exceptions.md R177). -/
def tickDown (v : Byte) : Byte := if v = 0 then 0 else v - 1

/-- `timerTick()` (60_exceptions.md R177, decision D12). -/
def timerTick (s : State) : Result := .next { s with DT := tickDown s.DT, ST := tickDown s.ST }

/-! ## Traces (60_exceptions.md R179) -/

/-- The alphabet of a run: what the host can do between two states. -/
inductive Stimulus where
  | step
  | keyDown (c : Nat)
  | keyUp (c : Nat)
  | timerTick
deriving DecidableEq, Repr

/-- One transition of the machine (60_exceptions.md R179). -/
def transition : Stimulus → State → Result
  | .step, s => step s
  | .keyDown c, s => keyDown c s
  | .keyUp c, s => keyUp c s
  | .timerTick, s => timerTick s

/-- The transitions of a list in order, up to the first that is refused. -/
def trace : List Stimulus → State → Result
  | [], s => .next s
  | e :: es, s =>
    match transition e s with
    | .next t => trace es t
    | .fault r => .fault r
    | .refused r => .refused r

/-! ## Diagnostic reads (10_state.md R42, 60_exceptions.md R188) -/

/-- What the host can read between steps. -/
structure Diagnostics where
  V : Vector Byte 16
  pc : Word
  I : Word
  DT : Byte
  ST : Byte
  fb : Framebuffer
  changes : List PixelChange
  fault : Bool
  stepResult : Bool
deriving DecidableEq, Repr

/-- The diagnostic port: reads without side effect (10_state.md R42). `sp`, `stack`, `waiting`, `waitTarget` and `keys`
are not on it. -/
def diagnostics (s : State) : Diagnostics :=
  ⟨s.V, s.pc, s.I, s.DT, s.ST, s.fb, s.changes, s.fault, s.stepResult⟩

end Sys2Proof.Machine
end

