-- ==== Sys2Proof/Machine/Variants.lean ====
section
/-! DEFINITION. The machine at every value of the four parameters 92_eei_decisions.md offers (`OOB_POLICY`,
`VF_ORDER`, `WAIT_HOLDS_STEP`, `FONT_INDEX_MASK`). At `hardware` it is the machine of Machine/Step.lean. -/

namespace Sys2Proof.Machine

/-- What each instruction does under the parameters `p`. -/
def execWith (p : Params) (i : Instr) (s : State) : Result :=
  match i with
  | .cls => execCls s
  | .ret => execRet s
  | .sys nnn => execSys nnn s
  | .jp nnn => execJp nnn s
  | .call nnn => execCall nnn s
  | .seByte x kk => execSeByte x kk s
  | .sneByte x kk => execSneByte x kk s
  | .seReg x y => execSeReg x y s
  | .ldByte x kk => execLdByte x kk s
  | .addByte x kk => execAddByte x kk s
  | .ldReg x y => execLdReg x y s
  | .orReg x y => execOrReg x y s
  | .andReg x y => execAndReg x y s
  | .xorReg x y => execXorReg x y s
  | .addReg x y => execAddReg x y s
  | .sub x y => execSubWith p.vfOrder x y s
  | .shr x => execShrWith p.vfOrder x s
  | .subn x y => execSubnWith p.vfOrder x y s
  | .shl x => execShlWith p.vfOrder x s
  | .sneReg x y => execSneReg x y s
  | .ldI nnn => execLdI nnn s
  | .jpV0 nnn => execJpV0 nnn s
  | .rnd x kk => execRnd x kk s
  | .drw x y n => execDrwWith p.oob x y n s
  | .skp x => execSkp x s
  | .sknp x => execSknp x s
  | .ldVxDT x => execLdVxDT x s
  | .ldVxK x => execLdVxK x s
  | .ldDT x => execLdDT x s
  | .ldST x => execLdST x s
  | .addI x => execAddI x s
  | .ldF x => execLdFWith p.fontMask x s
  | .ldB x => execLdBWith p.oob x s
  | .storeRegs x => execStoreRegsWith p.oob x s
  | .loadRegs x => execLoadRegsWith p.oob x s

/-- One call of `step` under the parameters `p` (30_encoding.md R76). -/
def stepWith (p : Params) (s : State) : Result := cycle (execWith p) p.waitHolds s

end Sys2Proof.Machine
end

