-- ==== Sys2Proof/Safety.lean ====
section
/-! DEFINITION. The terms claims about the machine are stated in: the conditions of 70_reset_and_hazards.md R193, the
reachable states, the machine's invariant, frames, and the effect of a drawn sprite in closed form. -/

namespace Sys2Proof.Machine

/-! ## Conditions of the machine (70_reset_and_hazards.md R193) -/

/-- *faulted*: gone wrong, for ever (60_exceptions.md R171). -/
abbrev Faulted (s : State) : Prop := s.fault = true

/-- *halted*: `pc > 0xFFE` (10_state.md R25). -/
abbrev Halted (s : State) : Prop := 0xFFE < s.pc.toNat

/-- *held*: the key wait is pending (44_keyboard_timers.md R163). -/
abbrev Held (s : State) : Prop := s.waiting = true

/-- None of the three: the next `step` fetches and executes (30_encoding.md R76). -/
structure Running (s : State) : Prop where
  notFaulted : s.fault = false
  inMemory : s.pc.toNat ≤ 0xFFE
  notHeld : s.waiting = false

/-- The instruction at `pc` is a jump to itself, opcode `0x1000 | pc` (70_reset_and_hazards.md R193). -/
abbrev AtSelfJump (s : State) : Prop := s.pc.toNat ≤ 0xFFE ∧ s.fetch = 0x1000#16 ||| s.pc

/-- The run has reached its end: a self-jump, or halted; a faulted state is no end (70_reset_and_hazards.md R193,
decision D30). -/
abbrev ReachedEnd (s : State) : Prop := s.fault = false ∧ (AtSelfJump s ∨ Halted s)

/-- A good state of a run: it has not faulted (60_exceptions.md R171). -/
abbrev Safe (s : State) : Prop := s.fault = false

/-- A state some host brings the machine to: constructed from some image, then any sequence of steps and host events
(60_exceptions.md R179, 70_reset_and_hazards.md R193). -/
def Reachable (s : State) : Prop :=
  ∃ image stimuli start, construct image = .next start ∧ trace stimuli start = .next s

/-! ## The invariant -/

/-- What holds of every state of a run: memory is in its canonical form, `pc` never passes 0x10FE, and no stack slot
passes 0x1000 (10_state.md R24). -/
structure Inv (s : State) : Prop where
  mem_wf : s.mem.wf = true
  pc_le : s.pc.toNat ≤ 0x10FE
  stack_le : ∀ k : BitVec 4, (s.slot k).toNat ≤ 0x1000

/-! ## Frames -/

/-- Nothing but `pc` differs; every byte of memory reads as before. -/
structure OnlyPc (s t : State) : Prop where
  rest : t = { s with pc := t.pc }
  bytes : ∀ a, t.readByte a = s.readByte a

/-- Nothing but `pc` and register `x` differs; every byte of memory reads as before. -/
structure OnlyRegPc (x : Reg) (s t : State) : Prop where
  rest : t = { s with V := t.V, pc := t.pc }
  regs : ∀ k, k ≠ x → t.reg k = s.reg k
  bytes : ∀ a, t.readByte a = s.readByte a

/-- Nothing but `pc`, register `x` and `VF` differs; every byte of memory reads as before. -/
structure OnlyRegVFPc (x : Reg) (s t : State) : Prop where
  rest : t = { s with V := t.V, pc := t.pc }
  regs : ∀ k, k ≠ x → k ≠ Reg.VF → t.reg k = s.reg k
  bytes : ∀ a, t.readByte a = s.readByte a

/-- Nothing but `pc` and `I` differs; every byte of memory reads as before. -/
structure OnlyIPc (s t : State) : Prop where
  rest : t = { s with I := t.I, pc := t.pc }
  bytes : ∀ a, t.readByte a = s.readByte a

/-- Nothing but `pc` and memory differs, and of memory nothing but the `n` bytes from the address of the access on
(42_index_memory.md R139). -/
structure OnlyStoredPc (n : Nat) (s t : State) : Prop where
  rest : t = { s with mem := t.mem, pc := t.pc }
  bytes : ∀ a, (a < s.dataAddr 0 ∨ s.dataAddr n ≤ a) → t.readByte a = s.readByte a

/-! ## Which registers an instruction writes (10_state.md R22, R27) -/

/-- The registers an instruction names as its destination; a register written as a flag only is not among them. -/
def namedDestinations : Instr → List Reg
  | .ldByte x _ | .addByte x _ | .ldReg x _ | .orReg x _ | .andReg x _ | .xorReg x _ | .addReg x _ | .sub x _
  | .shr x | .subn x _ | .shl x | .rnd x _ | .ldVxDT x => [x]
  | .loadRegs x => regsUpTo x
  | .cls | .ret | .sys _ | .jp _ | .call _ | .seByte _ _ | .sneByte _ _ | .seReg _ _ | .sneReg _ _ | .ldI _ | .jpV0 _
  | .drw _ _ _ | .skp _ | .sknp _ | .ldVxK _ | .ldDT _ | .ldST _ | .addI _ | .ldF _ | .ldB _ | .storeRegs _ => []

/-- The five instructions that write `VF` as a flag: SUB, SUBN, SHR, SHL and DRW (10_state.md R27). -/
def writesFlag : Instr → Bool
  | .sub _ _ | .subn _ _ | .shr _ | .shl _ | .drw _ _ _ => true
  | .cls | .ret | .sys _ | .jp _ | .call _ | .seByte _ _ | .sneByte _ _ | .seReg _ _ | .ldByte _ _ | .addByte _ _
  | .ldReg _ _ | .orReg _ _ | .andReg _ _ | .xorReg _ _ | .addReg _ _ | .sneReg _ _ | .ldI _ | .jpV0 _ | .rnd _ _
  | .skp _ | .sknp _ | .ldVxDT _ | .ldVxK _ | .ldDT _ | .ldST _ | .addI _ | .ldF _ | .ldB _ | .storeRegs _
  | .loadRegs _ => false

/-! ## Sprites in closed form (43_display.md R152 (c)) -/

/-- Some set bit of the sprite at `I`, its corner at `V[x]`, `V[y]`, lands on pixel (`px`, `py`). -/
def SpriteCovers (s : State) (x y : Reg) (n : Nibble) (px : Column) (py : PixelRow) : Prop :=
  ∃ r c : Nat, r < n.val ∧ c < 8 ∧ (s.readByte (s.dataAddr r)).getLsbD (7 - c) = true ∧
    px.val = ((s.reg x).toNat + c) % 64 ∧ py.val = ((s.reg y).toNat + r) % 32

/-! ## Where the four parameters matter -/

/-- The last offset of the access through `I` an instruction makes, if it makes one (20_memory.md R55, R58). -/
def lastOffset : Instr → Option Nat
  | .drw _ _ n => if n.val = 0 then none else some (n.val - 1)
  | .ldB _ => some 2
  | .storeRegs x => some x.val
  | .loadRegs x => some x.val
  | .cls | .ret | .sys _ | .jp _ | .call _ | .seByte _ _ | .sneByte _ _ | .seReg _ _ | .ldByte _ _ | .addByte _ _
  | .ldReg _ _ | .orReg _ _ | .andReg _ _ | .xorReg _ _ | .addReg _ _ | .sub _ _ | .shr _ | .subn _ _ | .shl _
  | .sneReg _ _ | .ldI _ | .jpV0 _ | .rnd _ _ | .skp _ | .sknp _ | .ldVxDT _ | .ldVxK _ | .ldDT _ | .ldST _
  | .addI _ | .ldF _ => none

/-- The access of `i`, if it makes one, stays in memory (20_memory.md R58). -/
def AccessInMemory (i : Instr) (s : State) : Prop := ∀ m, lastOffset i = some m → s.dataAddr m ≤ 0xFFF

/-- `i` names `VF` as an operand of a flag-writing operation of 41_load_arith.md (decision D8). -/
def usesVFAsOperand : Instr → Bool
  | .sub x y | .subn x y => x == Reg.VF || y == Reg.VF
  | .shr x | .shl x => x == Reg.VF
  | .cls | .ret | .sys _ | .jp _ | .call _ | .seByte _ _ | .sneByte _ _ | .seReg _ _ | .ldByte _ _ | .addByte _ _
  | .ldReg _ _ | .orReg _ _ | .andReg _ _ | .xorReg _ _ | .addReg _ _ | .sneReg _ _ | .ldI _ | .jpV0 _ | .rnd _ _
  | .drw _ _ _ | .skp _ | .sknp _ | .ldVxDT _ | .ldVxK _ | .ldDT _ | .ldST _ | .addI _ | .ldF _ | .ldB _
  | .storeRegs _ | .loadRegs _ => false

end Sys2Proof.Machine
end

