-- ==== Sys2Proof/Certificates/Slice0/Obligations.lean ====
section
/-! DEFINITION. The statements for the provers. Where a statement rests on a decision of the spec (92_eei_decisions.md
D<n>) or on general knowledge (93_implementation_defined.md G<n>), its docstring says so. -/

open Sys2Proof Sys2Proof.Machine

/-! ## Encoding and dispatch -/

/-- Decoding the two bytes of a well-formed instruction gives it back, with every operand at every value, whatever
bytes follow. The masks, patterns and order of the table are the spec's decision D22, the rows its item G1. -/
def Obligations.DecodeOfEncodeIsTheInstruction : Prop :=
  ∀ (i : Instr) (rest : List Byte), i.wellFormed = true → decode (encodeBytes i ++ rest) = .ok (i, rest)

/-- A word that decodes is the encoding of what it decodes to, but for the `y` field of SHR and SHL, which is ignored
(decisions D22, D9). -/
def Obligations.EncodeOfDecodeIsTheWord : Prop :=
  ∀ (op : Word) (i : Instr), decodeWord op = .ok i →
    i.wellFormed = true ∧
    (encode i = op ∨ ((∃ x, i = .shr x ∨ i = .shl x) ∧ encode i = op &&& 0xFF0F#16))

/-- The match rule (30_encoding.md R74): exclusive-OR under the mask, and equally equality under the mask, since every
pattern is zero outside its mask; bits outside the mask are wildcards. The decoder takes a row that matches with none
before it matching, and what it can decode is what the disassembler can name. -/
def Obligations.RowMatchIsMaskedEquality : Prop :=
  (∀ (before : List Row) (r : Row) (after : List Row), table = before ++ r :: after →
    r.pattern &&& ~~~r.mask = 0#16 ∧
    (∀ op : Word, r.matches op = true ↔ (op ^^^ r.pattern) &&& r.mask = 0#16) ∧
    (∀ op : Word, r.matches op = true ↔ op &&& r.mask = r.pattern) ∧
    (∀ op : Word, (∀ q ∈ before, q.matches op = false) → r.matches op = true →
      decodeWord op = .ok (r.form.build op))) ∧
  (∀ op : Word, (∃ text, opcodeText op = some text) ↔ ∃ i, decodeWord op = .ok i)

/-- No word matches two rows, but for 00E0 and 00EE, which match CLS and RET before SYS (30_encoding.md R75, decision
D22). -/
def Obligations.OnlySysOverlapsEarlierRows : Prop :=
  ∀ (op : Word) (a b : Nat) (r q : Row), a < b → table[a]? = some r → table[b]? = some q →
    r.matches op = true → q.matches op = true →
    q.mnemonic = "SYS_addr" ∧ ((op = 0x00E0#16 ∧ r.mnemonic = "CLS") ∨ (op = 0x00EE#16 ∧ r.mnemonic = "RET"))

/-- The words with no row, by the top nibble (30_encoding.md R78, derived there from R74 and R77, decision D22). -/
def Obligations.IllegalOpcodesByTopNibble : Prop :=
  ∀ op : Word, decodeWord op = .error (.illegalOpcode op) ↔
    ((fieldTop op = 0x5#4 ∨ fieldTop op = 0x9#4) ∧ fieldN op ≠ 0) ∨
    (fieldTop op = 0x8#4 ∧ fieldN op ∈ ([8, 9, 10, 11, 12, 13, 15] : List Nibble)) ∨
    (fieldTop op = 0xE#4 ∧ fieldKK op ∉ ([0x9E, 0xA1] : List Byte)) ∨
    (fieldTop op = 0xF#4 ∧
      fieldKK op ∉ ([0x07, 0x0A, 0x15, 0x18, 0x1E, 0x29, 0x33, 0x55, 0x65] : List Byte))

/-- The encodings the source itself prints (95_test_vectors.md S1 to S4), as bytes in address order. -/
def Obligations.PrintedEncodingsDecode : Prop :=
  decode [0xF4, 0x1E] = .ok (.addI 4, []) ∧ decode [0x84, 0x54] = .ok (.addReg 4 5, []) ∧
  decode [0xD1, 0x23] = .ok (.drw 1 2 3, []) ∧ decode [0x1F, 0xFF] = .ok (.jp 0xFFF, [])

/-! ## The step cycle -/

/-- The fetch is big-endian: the byte at `pc` is the high byte of the opcode (20_memory.md R51). -/
def Obligations.FetchIsBigEndian : Prop :=
  ∀ s : State,
    s.fetch.toNat = (s.readByte s.pc.toNat).toNat * 256 + (s.readByte (s.pc.toNat + 1)).toNat ∧
    s.fetch.extractLsb' 8 8 = s.readByte s.pc.toNat ∧ s.fetch.extractLsb' 0 8 = s.readByte (s.pc.toNat + 1)

/-- A running machine whose bytes at `pc` decode to `i` does what `exec` does with `i`; around it `step` puts the
change list of this step and its result (30_encoding.md R76, decision D30). -/
def Obligations.StepRunsTheDecodedInstruction : Prop :=
  ∀ (s : State) (i : Instr), Running s →
    decode [s.readByte s.pc.toNat, s.readByte (s.pc.toNat + 1)] = .ok (i, []) →
    ∃ t, exec i s = .next t ∧
      step s = .next { t with changes := Framebuffer.changes s.fb t.fb, stepResult := !t.fault }

/-- An opcode that matches no row moves `pc` on by 2 and does nothing else (60_exceptions.md R172): no exception, and
no state records it. `step` returns true and its change list is empty. -/
def Obligations.IllegalOpcodeOnlyAdvances : Prop :=
  ∀ s : State, Running s → (∀ r ∈ table, r.matches s.fetch = false) →
    step s = .next { s with pc := s.pc + 2, changes := [], stepResult := true }

/-- Halt (60_exceptions.md R174): a `step` of a halted machine returns false and changes nothing, `fault` staying as it
was; a `step` that does not fault returns false only there, so no instruction halts the machine; and a jump to itself
never halts, each step of it returning true and leaving the state. -/
def Obligations.HaltedStepChangesNothing : Prop :=
  (∀ s : State, Halted s → step s = .next { s with changes := [], stepResult := false }) ∧
  (∀ s t : State, step s = .next t → t.stepResult = false → t.fault = true ∨ Halted s) ∧
  (∀ s : State, Running s → AtSelfJump s → step s = .next { s with changes := [], stepResult := true })

/-- A held machine executes nothing and returns true (44_keyboard_timers.md R163, decisions D11 and D30). -/
def Obligations.HeldStepChangesNothing : Prop :=
  ∀ s : State, s.fault = false → s.pc.toNat ≤ 0xFFE → Held s →
    step s = .next { s with changes := [], stepResult := true }

/-- `step` never blocks and no instruction is refused: both always answer a next state (60_exceptions.md R189, R171). -/
def Obligations.EveryInstructionAndStepAnswersNext : Prop :=
  (∀ (i : Instr) (s : State), ∃ t, exec i s = .next t) ∧ (∀ s : State, ∃ t, step s = .next t)

/-- The change list of a step is exactly the set of pixels the step changed, each once, with its new value
(10_state.md R38, 43_display.md R153, decision D17). -/
def Obligations.ChangeListIsTheChangedPixels : Prop :=
  ∀ s t : State, step s = .next t →
    t.changes.Nodup ∧
    ∀ p : PixelChange, p ∈ t.changes ↔
      (t.fb.pixel p.x p.y ≠ s.fb.pixel p.x p.y ∧ p.newState = t.fb.pixel p.x p.y)

/-! ## The fault -/

/-- Faults are precise (60_exceptions.md R181): the state of a machine an instruction faulted is the state before it
with `fault` true, and no step of it executes anything; no host event saves state or transfers control. That there is
a fault at all is the spec's own addition (R171, decision D5). -/
def Obligations.FaultsArePrecise : Prop :=
  (∀ (i : Instr) (s t : State), exec i s = .next t → s.fault = false → t.fault = true →
    t = { s with fault := true }) ∧
  (∀ s : State, Faulted s → step s = .next { s with changes := [], stepResult := false }) ∧
  (∀ (e : Stimulus) (s t : State), e ≠ .step → transition e s = .next t →
    t.pc = s.pc ∧ t.sp = s.sp ∧ t.stack = s.stack ∧ t.fault = s.fault ∧ t.mem = s.mem ∧ t.I = s.I)

/-- An instruction faults exactly when its last data address is above 0xFFF, and then `fault` is all that changes, no
byte being moved (20_memory.md R58, 60_exceptions.md R171, decision D5). -/
def Obligations.OutOfRangeAccessRaisesTheFault : Prop :=
  (∀ (i : Instr) (m : Nat) (s : State), lastOffset i = some m → 0xFFF < s.dataAddr m →
    exec i s = .next { s with fault := true }) ∧
  (∀ (i : Instr) (s t : State), AccessInMemory i s → exec i s = .next t → t.fault = s.fault)

/-! ## Invariants -/

/-- Every step keeps the invariant: canonical memory, `pc` at most 0x10FE, stack slots at most 0x1000 (the bounds are
10_state.md R24, which the spec marks as derived and as decision D1). -/
def Obligations.StepKeepsInv : Prop := ∀ s t : State, Inv s → step s = .next t → Inv t

/-- Every transition, a step or a host event, keeps the invariant (10_state.md R24, decision D1; the alphabet of
transitions is 60_exceptions.md R179). -/
def Obligations.EveryTransitionKeepsInv : Prop :=
  ∀ (e : Stimulus) (s t : State), Inv s → transition e s = .next t → Inv t

/-- The state after reset meets the invariant: its `pc` is 0x200 (10_state.md R40), its slots are zero by decision D3
(log 1). -/
def Obligations.ResetStateMeetsInv : Prop := Inv State.reset

/-- The machine constructed from any image meets the invariant: its `pc` is 0x200 (10_state.md R40, 70_reset_and_hazards.md
R190), its slots are zero by decision D3 (log 1), and its memory is the image's (20_memory.md R66, decision D19). -/
def Obligations.ConstructedMachineMeetsInv : Prop :=
  ∀ (image : List Byte) (t : State), construct image = .next t → Inv t

/-- Every reachable state, from any image under any sequence of steps and host events, meets the invariant; so in
particular `pc + 4` and `pc + 2` never wrap (10_state.md R24, decision D1; at construction the slots are zero by decision
D3, log 1). -/
def Obligations.ReachableStatesMeetInv : Prop := ∀ s : State, Reachable s → Inv s

/-- Once halted or faulted a machine stays so under every sequence of steps and host events, and of its state nothing
but the keys, the timers, the outputs and the completion of a pending key wait can still change: of the registers only the
wait's target, and only by the event that ends the wait (10_state.md R25, R34; 60_exceptions.md R175 to R177; decisions D1,
D5, D26). -/
def Obligations.StoppedMachineStaysStopped : Prop :=
  ∀ (es : List Stimulus) (s t : State), Faulted s ∨ Halted s → trace es s = .next t →
    t = { s with V := t.V, waiting := t.waiting, keys := t.keys, DT := t.DT, ST := t.ST, changes := t.changes,
                 stepResult := t.stepResult } ∧
    (∀ k, k ≠ s.waitTarget → t.reg k = s.reg k) ∧
    (s.waiting = false → t.waiting = false ∧ t.V = s.V) ∧ (t.waiting = true → t.V = s.V)

/-! ## Who writes what -/

/-- `VF` as a flag (10_state.md R27, with decisions D7 and D13): an instruction other than SUB, SUBN, SHR, SHL and DRW
leaves `VF` alone unless it names it as its destination; those five, when `VF` is not their destination and they do
not fault, leave 0 or 1 in it. -/
def Obligations.VFIsWrittenAsFlagByFive : Prop :=
  ∀ (i : Instr) (s t : State), exec i s = .next t → Reg.VF ∉ namedDestinations i →
    (writesFlag i = false → t.reg Reg.VF = s.reg Reg.VF) ∧
    (writesFlag i = true → s.fault = false → t.fault = false → t.reg Reg.VF = 0 ∨ t.reg Reg.VF = 1)

/-- Registers an instruction neither names as destination nor writes as a flag are unchanged (10_state.md R22, R27). -/
def Obligations.OtherRegistersAreUnchanged : Prop :=
  ∀ (i : Instr) (s t : State) (k : Reg), exec i s = .next t → k ∉ namedDestinations i →
    (writesFlag i = true → k ≠ Reg.VF) → t.reg k = s.reg k

/-- Everything but the general registers and `pc` is changed only by the instructions the spec names
(10_state.md sections 4 to 7). -/
def Obligations.SpecialStateHasItsWriters : Prop :=
  ∀ (i : Instr) (s t : State), exec i s = .next t →
    (t.I ≠ s.I → (∃ nnn, i = .ldI nnn) ∨ (∃ x, i = .addI x ∨ i = .ldF x)) ∧
    (t.DT ≠ s.DT → ∃ x, i = .ldDT x) ∧ (t.ST ≠ s.ST → ∃ x, i = .ldST x) ∧
    (t.sp ≠ s.sp → i = .ret ∨ ∃ nnn, i = .call nnn) ∧ (t.stack ≠ s.stack → ∃ nnn, i = .call nnn) ∧
    (t.waiting ≠ s.waiting ∨ t.waitTarget ≠ s.waitTarget → ∃ x, i = .ldVxK x) ∧
    (t.fb ≠ s.fb → i = .cls ∨ ∃ x y n, i = .drw x y n) ∧
    (t.mem ≠ s.mem → ∃ x, i = .ldB x ∨ i = .storeRegs x) ∧ (t.draws ≠ s.draws → ∃ x kk, i = .rnd x kk) ∧
    t.keys = s.keys ∧ t.changes = s.changes ∧ t.stepResult = s.stepResult

/-- The delay timer (10_state.md R29): `LD DT, Vx` writes it, `LD Vx, DT` reads it, no other step and no key event changes
it, and `timerTick` sets it to `DT - 1` if it is above 0 and leaves it at 0 otherwise. -/
def Obligations.DelayTimerMovesOnTickAlone : Prop :=
  (∀ (e : Stimulus) (s t : State), transition e s = .next t → t.DT ≠ s.DT →
    e = .timerTick ∨ (e = .step ∧ ∃ x, decodeWord s.fetch = .ok (.ldDT x) ∧ t.DT = s.reg x)) ∧
  (∀ (x : Reg) (s : State), ∃ t, exec (.ldVxDT x) s = .next t ∧ t.reg x = s.DT) ∧
  (∀ (x : Reg) (s : State), ∃ t, exec (.ldDT x) s = .next t ∧ t.DT = s.reg x) ∧
  (∀ s : State, ∃ t, timerTick s = .next t ∧ (0 < s.DT.toNat → t.DT.toNat = s.DT.toNat - 1) ∧ (s.DT = 0 → t.DT = 0))

/-- The sound timer (10_state.md R30): no step reads it, so two machines that differ in `ST` alone step alike but for
`ST`; `LD ST, Vx` writes it, no other step and no key event changes it, and `timerTick` moves it as it moves `DT`. -/
def Obligations.SoundTimerIsNeverRead : Prop :=
  (∀ (s : State) (v : Byte), ∃ t t', step s = .next t ∧ step { s with ST := v } = .next t' ∧
    { t' with ST := t.ST } = t ∧ (t'.ST = v ∨ t'.ST = t.ST)) ∧
  (∀ (x : Reg) (s : State), ∃ t, exec (.ldST x) s = .next t ∧ t.ST = s.reg x) ∧
  (∀ (e : Stimulus) (s t : State), transition e s = .next t → t.ST ≠ s.ST →
    e = .timerTick ∨ (e = .step ∧ ∃ x, decodeWord s.fetch = .ok (.ldST x) ∧ t.ST = s.reg x)) ∧
  (∀ s : State, ∃ t, timerTick s = .next t ∧ (0 < s.ST.toNat → t.ST.toNat = s.ST.toNat - 1) ∧ (s.ST = 0 → t.ST = 0))

/-- The stack is read by RET alone and the key set by SKP and SKNP alone (10_state.md R31, R35): whatever they hold, any
other instruction does the same to the rest of the state. -/
def Obligations.StackAndKeysReachOnlyTheirReaders : Prop :=
  ∀ (i : Instr) (s : State),
    (i ≠ .ret → ∀ stk : Vector Word 16, ∃ t t', exec i s = .next t ∧ exec i { s with stack := stk } = .next t' ∧
      { t' with stack := t.stack } = t) ∧
    ((∀ x, i ≠ .skp x ∧ i ≠ .sknp x) → ∀ ks : Vector Bool 16, ∃ t t', exec i s = .next t ∧
      exec i { s with keys := ks } = .next t' ∧ { t' with keys := t.keys } = t)

/-! ## Control flow -/

/-- `SYS addr` does nothing but move on (40_control_flow.md R101, decision D10, G6). -/
def Obligations.SysOnlyAdvances : Prop :=
  ∀ (nnn : Addr) (s : State), ∃ t, exec (.sys nnn) s = .next t ∧ t.pc = s.pc + 2 ∧ OnlyPc s t

/-- `RET` (40_control_flow.md R102, decision D6): the pointer goes down modulo 16, `pc` takes the slot it then
names, and no slot changes. -/
def Obligations.RetTakesTheSavedAddress : Prop :=
  ∀ s : State, ∃ t, exec .ret s = .next t ∧ t.sp.toNat = (s.sp.toNat + 15) % 16 ∧ t.pc = s.slot t.sp ∧
    t = { s with sp := t.sp, pc := t.pc } ∧ ∀ a, t.readByte a = s.readByte a

/-- `JP addr` (40_control_flow.md R103), every word 1nnn: from any `pc`, to the address, odd or even; 0xFFF halts; a jump
to itself leaves the state as it is, and `step` at it returns true and stays there. -/
def Obligations.JpGoesToTheAddress : Prop :=
  ∀ (nnn : Addr) (s : State), decodeWord (0x1#4 ++ nnn) = .ok (.jp nnn) ∧
    (∃ t, exec (.jp nnn) s = .next t ∧ t.pc.toNat = nnn.toNat ∧ OnlyPc s t ∧ (nnn = 0xFFF → Halted t) ∧
      (s.pc.toNat = nnn.toNat → t = s)) ∧
    (Running s → decodeWord s.fetch = .ok (.jp nnn) → s.pc.toNat = nnn.toNat →
      step s = .next { s with changes := [], stepResult := true })

/-- `CALL addr` (40_control_flow.md R104, decision D6): `pc + 2` goes to the slot `sp` names, no other slot changes, the
pointer goes up modulo 16, and `pc` takes the address. -/
def Obligations.CallSavesTheNextAddress : Prop :=
  ∀ (nnn : Addr) (s : State), ∃ t, exec (.call nnn) s = .next t ∧ t.slot s.sp = s.pc + 2 ∧
    (∀ k, k ≠ s.sp → t.slot k = s.slot k) ∧ t.sp.toNat = (s.sp.toNat + 1) % 16 ∧ t.pc.toNat = nnn.toNat ∧
    t = { s with stack := t.stack, sp := t.sp, pc := t.pc } ∧ ∀ a, t.readByte a = s.readByte a

/-- A CALL and a RET later, with the stack as the CALL left it, control is after the CALL and the pointer is back
(40_control_flow.md R102, R104, decision D6). -/
def Obligations.CallThenRetReturns : Prop :=
  ∀ (nnn : Addr) (s t u : State), exec (.call nnn) s = .next t → u.stack = t.stack → u.sp = t.sp →
    ∃ v, exec .ret u = .next v ∧ v.pc = s.pc + 2 ∧ v.sp = s.sp ∧ v = { u with pc := v.pc, sp := v.sp }

/-- `JP V0, addr` (40_control_flow.md R105, G7): the sum is not reduced. -/
def Obligations.JpV0AddsV0 : Prop :=
  ∀ (nnn : Addr) (s : State), ∃ t, exec (.jpV0 nnn) s = .next t ∧ t.pc.toNat = nnn.toNat + (s.reg 0).toNat ∧
    OnlyPc s t

/-- `SE Vx, byte` (40_control_flow.md R106, G8). -/
def Obligations.SeByteSkipsWhenEqual : Prop :=
  ∀ (x : Reg) (kk : Byte) (s : State), ∃ t, exec (.seByte x kk) s = .next t ∧ OnlyPc s t ∧
    t.pc = if (s.reg x).toNat = kk.toNat then s.pc + 4 else s.pc + 2

/-- `SNE Vx, byte` (40_control_flow.md R107), every word 4xkk (the encodings of all rows are decision D22 and G1). -/
def Obligations.SneByteSkipsWhenDifferent : Prop :=
  ∀ (x : Reg) (kk : Byte) (s : State), decodeWord (0x4#4 ++ nibbleBits x ++ kk) = .ok (.sneByte x kk) ∧
    ∃ t, exec (.sneByte x kk) s = .next t ∧ OnlyPc s t ∧
      t.pc = if (s.reg x).toNat ≠ kk.toNat then s.pc + 4 else s.pc + 2

/-- `SE Vx, Vy` and `SNE Vx, Vy` (40_control_flow.md R108, R109): every word 5xy0 and 9xy0, and the words 5xy1 to 5xyF
and 9xy1 to 9xyF are illegal encodings (the encodings of all rows are decision D22 and G1). -/
def Obligations.RegisterSkips : Prop :=
  ∀ (x y : Reg) (n : BitVec 4) (s : State),
    decodeWord (0x5#4 ++ nibbleBits x ++ nibbleBits y ++ 0#4) = .ok (.seReg x y) ∧
    decodeWord (0x9#4 ++ nibbleBits x ++ nibbleBits y ++ 0#4) = .ok (.sneReg x y) ∧
    (n ≠ 0 → decodeWord (0x5#4 ++ nibbleBits x ++ nibbleBits y ++ n) =
        .error (.illegalOpcode (0x5#4 ++ nibbleBits x ++ nibbleBits y ++ n)) ∧
      decodeWord (0x9#4 ++ nibbleBits x ++ nibbleBits y ++ n) =
        .error (.illegalOpcode (0x9#4 ++ nibbleBits x ++ nibbleBits y ++ n))) ∧
    (∃ t, exec (.seReg x y) s = .next t ∧ OnlyPc s t ∧
      t.pc = if (s.reg x).toNat = (s.reg y).toNat then s.pc + 4 else s.pc + 2) ∧
    (∃ t, exec (.sneReg x y) s = .next t ∧ OnlyPc s t ∧
      t.pc = if (s.reg x).toNat ≠ (s.reg y).toNat then s.pc + 4 else s.pc + 2)

/-! ## Loads, arithmetic and logic -/

/-- `LD Vx, byte` and `LD Vx, Vy` (41_load_arith.md R121, R123, G9). -/
def Obligations.RegisterLoads : Prop :=
  ∀ (x y : Reg) (kk : Byte) (s : State),
    (∃ t, exec (.ldByte x kk) s = .next t ∧ t.reg x = kk ∧ t.pc = s.pc + 2 ∧ OnlyRegPc x s t) ∧
    (∃ t, exec (.ldReg x y) s = .next t ∧ t.reg x = s.reg y ∧ t.pc = s.pc + 2 ∧ OnlyRegPc x s t)

/-- `ADD Vx, byte` (41_load_arith.md R122), every word 7xkk (the encodings of all rows are decision D22 and G1): the sum
modulo 256; `VF` is written only as the destination. -/
def Obligations.AddByteWrapsModulo256 : Prop :=
  ∀ (x : Reg) (kk : Byte) (s : State), decodeWord (0x7#4 ++ nibbleBits x ++ kk) = .ok (.addByte x kk) ∧
    ∃ t, exec (.addByte x kk) s = .next t ∧ (t.reg x).toNat = ((s.reg x).toNat + kk.toNat) % 256 ∧
      t.pc = s.pc + 2 ∧ OnlyRegPc x s t

/-- `ADD Vx, Vy` (41_load_arith.md R127, decision D7): the sum modulo 256 and no carry flag. -/
def Obligations.AddRegWrapsWithoutCarryFlag : Prop :=
  ∀ (x y : Reg) (s : State), ∃ t, exec (.addReg x y) s = .next t ∧
    (t.reg x).toNat = ((s.reg x).toNat + (s.reg y).toNat) % 256 ∧ t.pc = s.pc + 2 ∧ OnlyRegPc x s t

/-- OR, AND and XOR work bit by bit and write no flag (41_load_arith.md R124, R125, R126, G9, decision D7). -/
def Obligations.LogicWorksBitByBit : Prop :=
  ∀ (x y : Reg) (s : State),
    (∃ t, exec (.orReg x y) s = .next t ∧ t.pc = s.pc + 2 ∧ OnlyRegPc x s t ∧
      ∀ j < 8, (t.reg x).getLsbD j = ((s.reg x).getLsbD j || (s.reg y).getLsbD j)) ∧
    (∃ t, exec (.andReg x y) s = .next t ∧ t.pc = s.pc + 2 ∧ OnlyRegPc x s t ∧
      ∀ j < 8, (t.reg x).getLsbD j = ((s.reg x).getLsbD j && (s.reg y).getLsbD j)) ∧
    (∃ t, exec (.xorReg x y) s = .next t ∧ t.pc = s.pc + 2 ∧ OnlyRegPc x s t ∧
      ∀ j < 8, (t.reg x).getLsbD j = ((s.reg x).getLsbD j ^^ (s.reg y).getLsbD j))

/-- `SUB Vx, Vy` (41_load_arith.md R128, decision D8): the flag, 1 if `V[x] > V[y]` strictly else 0, goes to `VF` first;
the difference modulo 256 is of the registers as that write left them. -/
def Obligations.SubWritesTheFlagFirst : Prop :=
  ∀ (x y : Reg) (s : State), ∃ t, exec (.sub x y) s = .next t ∧
    let flag := if (s.reg y).toNat < (s.reg x).toNat then 1 else 0
    let left := fun k : Reg => if k = Reg.VF then flag else (s.reg k).toNat
    (t.reg x).toNat = (left x + 256 - left y) % 256 ∧ (x ≠ Reg.VF → (t.reg Reg.VF).toNat = flag) ∧
    t.pc = s.pc + 2 ∧ OnlyRegVFPc x s t

/-- `SUBN Vx, Vy` (41_load_arith.md R130, decision D8): the flag is 1 if `V[y] > V[x]` strictly else 0, written first. -/
def Obligations.SubnWritesTheFlagFirst : Prop :=
  ∀ (x y : Reg) (s : State), ∃ t, exec (.subn x y) s = .next t ∧
    let flag := if (s.reg x).toNat < (s.reg y).toNat then 1 else 0
    let left := fun k : Reg => if k = Reg.VF then flag else (s.reg k).toNat
    (t.reg x).toNat = (left y + 256 - left x) % 256 ∧ (x ≠ Reg.VF → (t.reg Reg.VF).toNat = flag) ∧
    t.pc = s.pc + 2 ∧ OnlyRegVFPc x s t

/-- `SHR Vx` and `SHL Vx` (41_load_arith.md R129, R131, decisions D8 and D9): the bit shifted out goes to `VF` first, then
the register is halved, or doubled modulo 256, as that write left it. -/
def Obligations.ShiftsWriteTheFlagFirst : Prop :=
  ∀ (x : Reg) (s : State),
    (∃ t, exec (.shr x) s = .next t ∧
      let flag := (s.reg x).toNat % 2
      (t.reg x).toNat = (if x = Reg.VF then flag else (s.reg x).toNat) / 2 ∧
      (x ≠ Reg.VF → (t.reg Reg.VF).toNat = flag) ∧ t.pc = s.pc + 2 ∧ OnlyRegVFPc x s t) ∧
    (∃ t, exec (.shl x) s = .next t ∧
      let flag := (s.reg x).toNat / 128
      (t.reg x).toNat = (if x = Reg.VF then flag else (s.reg x).toNat) * 2 % 256 ∧
      (x ≠ Reg.VF → (t.reg Reg.VF).toNat = flag) ∧ t.pc = s.pc + 2 ∧ OnlyRegVFPc x s t)

/-- `RND Vx, byte` (41_load_arith.md R132, decision D16, G10): the drawn byte under the mask `kk`, whatever byte the free
value gives at whatever count, and the next execution draws at the next count. The counter is the model's own (log 10). -/
def Obligations.RndIsTheDrawUnderTheMask : Prop :=
  ∀ (x : Reg) (kk : Byte) (s : State), ∃ t, exec (.rnd x kk) s = .next t ∧
    (∀ j < 8, (t.reg x).getLsbD j = ((Config.drawByte s.draws).getLsbD j && kk.getLsbD j)) ∧
    (t.reg x).toNat ≤ kk.toNat ∧ t.draws = s.draws + 1 ∧ t.pc = s.pc + 2 ∧
    t = { s with V := t.V, pc := t.pc, draws := t.draws } ∧ (∀ k, k ≠ x → t.reg k = s.reg k) ∧
    ∀ a, t.readByte a = s.readByte a

/-! ## The address register and memory -/

/-- `LD I, addr`, `ADD I, Vx` and `LD F, Vx` (42_index_memory.md R140, R141, R142, G11, decisions D4 and D14). -/
def Obligations.AddressRegisterWrites : Prop :=
  ∀ (nnn : Addr) (x : Reg) (s : State),
    (∃ t, exec (.ldI nnn) s = .next t ∧ t.I.toNat = nnn.toNat ∧ t.pc = s.pc + 2 ∧ OnlyIPc s t) ∧
    (∃ t, exec (.addI x) s = .next t ∧ t.I.toNat = (s.I.toNat + (s.reg x).toNat) % 65536 ∧ t.pc = s.pc + 2 ∧
      OnlyIPc s t) ∧
    (∃ t, exec (.ldF x) s = .next t ∧ t.I.toNat = 5 * (s.reg x).toNat ∧ t.pc = s.pc + 2 ∧ OnlyIPc s t)

/-- `LD B, Vx` (42_index_memory.md R143, decision D21, G11) with its three bytes in memory: three decimal digits whose
number is `V[x]`, hundreds at the lowest address; no other byte changes. -/
def Obligations.LdBStoresTheDigits : Prop :=
  ∀ (x : Reg) (s : State), s.mem.wf = true → s.dataAddr 2 ≤ 0xFFF → ∃ t, exec (.ldB x) s = .next t ∧
    (t.readByte (s.dataAddr 0)).toNat * 100 + (t.readByte (s.dataAddr 1)).toNat * 10 +
      (t.readByte (s.dataAddr 2)).toNat = (s.reg x).toNat ∧
    (t.readByte (s.dataAddr 1)).toNat < 10 ∧ (t.readByte (s.dataAddr 2)).toNat < 10 ∧
    t.pc = s.pc + 2 ∧ OnlyStoredPc 3 s t

/-- `LD [I], Vx` (42_index_memory.md R144, decision D15) with its last byte in memory: registers 0 to x go to `I` to
`I + x`, `I` is unchanged and no other byte changes. -/
def Obligations.StoreRegsStoresEachRegister : Prop :=
  ∀ (x : Reg) (s : State), s.mem.wf = true → s.dataAddr x.val ≤ 0xFFF → ∃ t, exec (.storeRegs x) s = .next t ∧
    (∀ k : Reg, k ≤ x → t.readByte (s.dataAddr k.val) = s.reg k) ∧ t.pc = s.pc + 2 ∧
    OnlyStoredPc (x.val + 1) s t

/-- `LD Vx, [I]` (42_index_memory.md R145, decision D15) with its last byte in memory: registers 0 to x come from `I` to
`I + x`, the registers above x, `I` and memory are unchanged. -/
def Obligations.LoadRegsLoadsEachRegister : Prop :=
  ∀ (x : Reg) (s : State), s.dataAddr x.val ≤ 0xFFF → ∃ t, exec (.loadRegs x) s = .next t ∧
    (∀ k : Reg, k ≤ x → t.reg k = s.readByte (s.dataAddr k.val)) ∧ (∀ k : Reg, x < k → t.reg k = s.reg k) ∧
    t.pc = s.pc + 2 ∧ t = { s with V := t.V, pc := t.pc } ∧ ∀ a, t.readByte a = s.readByte a

/-- A store is seen by the very next fetch (20_memory.md R64, derived there from R51, R52 and R76): after `LD [I], Vx` and
after `LD B, Vx`, each of the two bytes fetched next is the one just stored where it lies in the stored bytes, and the
byte that was there before elsewhere; so whether both, one or none of them was stored. The registers' places and the
digits' are decisions D15 and D21. -/
def Obligations.StoredCodeIsFetchedNext : Prop :=
  ∀ (x : Reg) (s : State), s.mem.wf = true →
    (s.dataAddr x.val ≤ 0xFFF → ∃ t, exec (.storeRegs x) s = .next t ∧
      let after := fun a : Nat =>
        if s.dataAddr 0 ≤ a ∧ a ≤ s.dataAddr x.val then s.reg (Fin.ofNat 16 (a - s.dataAddr 0)) else s.readByte a
      t.fetch = wordOfBytes (after t.pc.toNat) (after (t.pc.toNat + 1))) ∧
    (s.dataAddr 2 ≤ 0xFFF → ∃ t, exec (.ldB x) s = .next t ∧
      let after := fun a : Nat =>
        if a = s.dataAddr 0 then BitVec.ofNat 8 ((s.reg x).toNat / 100)
        else if a = s.dataAddr 1 then BitVec.ofNat 8 ((s.reg x).toNat / 10 % 10)
        else if a = s.dataAddr 2 then BitVec.ofNat 8 ((s.reg x).toNat % 10) else s.readByte a
      t.fetch = wordOfBytes (after t.pc.toNat) (after (t.pc.toNat + 1)))

/-! ## Display -/

/-- `CLS` (43_display.md R151, G12): every pixel false, nothing else but `pc`. -/
def Obligations.ClsClearsEveryPixel : Prop :=
  ∀ s : State, ∃ t, exec .cls s = .next t ∧ (∀ px py, t.fb.pixel px py = false) ∧ t.pc = s.pc + 2 ∧
    t = { s with fb := t.fb, pc := t.pc } ∧ ∀ a, t.readByte a = s.readByte a

/-- `DRW Vx, Vy, nibble` in the closed form the spec derives (43_display.md R152 (c), decision D13, G5), where its sprite
is in memory or has no row: exactly the pixels a set sprite bit lands on flip, and `VF` is 1 if one of them was on, else
0. The sprite and its place are read before anything is written. -/
def Obligations.DrwFlipsTheCoveredPixels : Prop :=
  ∀ (x y : Reg) (n : Nibble) (s : State), AccessInMemory (.drw x y n) s → ∃ t, exec (.drw x y n) s = .next t ∧
    (∀ px py, t.fb.pixel px py ≠ s.fb.pixel px py ↔ SpriteCovers s x y n px py) ∧
    ((∃ px py, SpriteCovers s x y n px py ∧ s.fb.pixel px py = true) → t.reg Reg.VF = 1) ∧
    ((¬ ∃ px py, SpriteCovers s x y n px py ∧ s.fb.pixel px py = true) → t.reg Reg.VF = 0) ∧
    t.pc = s.pc + 2 ∧ t = { s with V := t.V, fb := t.fb, pc := t.pc } ∧ (∀ k, k ≠ Reg.VF → t.reg k = s.reg k) ∧
    ∀ a, t.readByte a = s.readByte a

/-- Drawing the same sprite twice at the same place restores the framebuffer (43_display.md R152 (e), decision D13), and
the second draw collides exactly where the sprite covers a pixel that was off before the first. R152 (e) itself says it
collides if the sprite has any bit set, which its operation gives only where such a pixel was off (log 16). -/
def Obligations.DrawingTwiceRestores : Prop :=
  ∀ (x y : Reg) (n : Nibble) (s t : State), AccessInMemory (.drw x y n) s → exec (.drw x y n) s = .next t →
    t.reg x = s.reg x → t.reg y = s.reg y →
    ∃ u, exec (.drw x y n) t = .next u ∧ u.fb = s.fb ∧
      ((∃ px py, SpriteCovers s x y n px py ∧ s.fb.pixel px py = false) → u.reg Reg.VF = 1) ∧
      ((¬ ∃ px py, SpriteCovers s x y n px py ∧ s.fb.pixel px py = false) → u.reg Reg.VF = 0)

/-! ## Keyboard and timers -/

/-- `SKP Vx` and `SKNP Vx` (44_keyboard_timers.md R160, R161, decision D29, G13): the key of the register's whole value;
a value above 15 is no key. -/
def Obligations.KeySkips : Prop :=
  ∀ (x : Reg) (s : State),
    (∃ t, exec (.skp x) s = .next t ∧ OnlyPc s t ∧
      (t.pc = s.pc + 4 ∧ (∃ c : Fin 16, (s.reg x).toNat = c.val ∧ s.keys[c.val] = true) ∨
       t.pc = s.pc + 2 ∧ ¬ ∃ c : Fin 16, (s.reg x).toNat = c.val ∧ s.keys[c.val] = true)) ∧
    (∃ t, exec (.sknp x) s = .next t ∧ OnlyPc s t ∧
      (t.pc = s.pc + 4 ∧ (¬ ∃ c : Fin 16, (s.reg x).toNat = c.val ∧ s.keys[c.val] = true) ∨
       t.pc = s.pc + 2 ∧ ∃ c : Fin 16, (s.reg x).toNat = c.val ∧ s.keys[c.val] = true))

/-- `LD Vx, K` (44_keyboard_timers.md R162, decision D11): sets the wait and its target and moves on; `V[x]` is not
written. -/
def Obligations.LdKSetsTheWait : Prop :=
  ∀ (x : Reg) (s : State), ∃ t, exec (.ldVxK x) s = .next t ∧ t.waiting = true ∧ t.waitTarget = x ∧
    t.pc = s.pc + 2 ∧ t = { s with waiting := t.waiting, waitTarget := t.waitTarget, pc := t.pc } ∧
    ∀ a, t.readByte a = s.readByte a

/-- `LD Vx, DT`, `LD DT, Vx` and `LD ST, Vx` (44_keyboard_timers.md R164, R165, R166, G14). -/
def Obligations.TimerMoves : Prop :=
  ∀ (x : Reg) (s : State),
    (∃ t, exec (.ldVxDT x) s = .next t ∧ t.reg x = s.DT ∧ t.pc = s.pc + 2 ∧ OnlyRegPc x s t) ∧
    (∃ t, exec (.ldDT x) s = .next t ∧ t.DT = s.reg x ∧ t.pc = s.pc + 2 ∧ t = { s with DT := t.DT, pc := t.pc } ∧
      ∀ a, t.readByte a = s.readByte a) ∧
    (∃ t, exec (.ldST x) s = .next t ∧ t.ST = s.reg x ∧ t.pc = s.pc + 2 ∧ t = { s with ST := t.ST, pc := t.pc } ∧
      ∀ a, t.readByte a = s.readByte a)

/-! ## Host events -/

/-- `keyDown` and `keyUp` (60_exceptions.md R175, R176, decisions D18 and D28): the key set takes or loses exactly the
code; a `keyDown` ends a pending wait by writing the code to its target, and nothing else changes; a code above 15 has
no transition. -/
def Obligations.KeyEventsFollowTheirContract : Prop :=
  ∀ (c : Nat) (s : State),
    (c < 16 → ∃ t, keyDown c s = .next t ∧
      (∀ k : Byte, t.pressed k = (s.pressed k || decide (k.toNat = c))) ∧
      t = { s with V := t.V, waiting := false, keys := t.keys } ∧
      (s.waiting = true → (t.reg s.waitTarget).toNat = c ∧ ∀ k, k ≠ s.waitTarget → t.reg k = s.reg k) ∧
      (s.waiting = false → t.V = s.V)) ∧
    (c < 16 → ∃ t, keyUp c s = .next t ∧
      (∀ k : Byte, t.pressed k = (s.pressed k && decide (k.toNat ≠ c))) ∧ t = { s with keys := t.keys }) ∧
    (16 ≤ c → keyDown c s = .refused (.keyCodeOutOfRange c) ∧ keyUp c s = .refused (.keyCodeOutOfRange c))

/-- `timerTick` (60_exceptions.md R177, decision D12, G15): each timer goes down by 1 and stops at 0, on a machine in any
condition; nothing else changes. -/
def Obligations.TimerTickCountsDownToZero : Prop :=
  ∀ s : State, ∃ t, timerTick s = .next t ∧ t.DT.toNat = s.DT.toNat - 1 ∧ t.ST.toNat = s.ST.toNat - 1 ∧
    t = { s with DT := t.DT, ST := t.ST }

/-- The key wait from end to end (44_keyboard_timers.md R162, R163; 60_exceptions.md R175, R189; decisions D11, D28):
a running machine at an `LD Vx, K` that leaves room for the next instruction waits through any number of steps, ticks and
key releases; the first `keyDown(c)` writes c to `V[x]`, and the machine stands at the next instruction with every other
register, `I`, memory, stack and framebuffer as they were. -/
def Obligations.KeyWaitEndsWithTheFirstKeyDown : Prop :=
  ∀ (x : Reg) (c : Nat) (es : List Stimulus) (s : State), Running s → s.pc.toNat ≤ 0xFFC →
    decodeWord s.fetch = .ok (.ldVxK x) → c < 16 →
    (∀ e ∈ es, e = .step ∨ e = .timerTick ∨ ∃ k, k < 16 ∧ e = .keyUp k) →
    ∃ t, trace (.step :: es ++ [.keyDown c]) s = .next t ∧ (t.reg x).toNat = c ∧ (∀ k, k ≠ x → t.reg k = s.reg k) ∧
      Running t ∧ t.pc = s.pc + 2 ∧ t.I = s.I ∧ t.mem = s.mem ∧ t.stack = s.stack ∧ t.sp = s.sp ∧ t.fb = s.fb

/-! ## Reset and construction -/

/-- Construction from an image (20_memory.md R66, R57; 10_state.md R40; 70_reset_and_hazards.md R190; the zeros are
decision D3, the font bytes D20 and G4, the size limit D19): the font at 0 to 79, the image at 0x200, zero elsewhere,
`pc` at 0x200, everything else zero, false or empty; a longer image is refused. -/
def Obligations.ConstructionPlacesFontAndImage : Prop :=
  ∀ image : List Byte,
    (image.length ≤ 3584 → ∃ t, construct image = .next t ∧ t.pc = 0x200#16 ∧
      (∀ a : Nat, a < 80 → t.readByte a = fontBytes.getD a 0) ∧
      (∀ k : Nat, (h : k < image.length) → t.readByte (0x200 + k) = image[k]) ∧
      (∀ a : Nat, 80 ≤ a → (a < 0x200 ∨ 0x200 + image.length ≤ a) → t.readByte a = 0) ∧
      (∀ k : Reg, t.reg k = 0) ∧ t.I = 0 ∧ t.DT = 0 ∧ t.ST = 0 ∧ t.sp = 0 ∧ (∀ k, t.slot k = 0) ∧
      t.waiting = false ∧ t.waitTarget = 0 ∧ t.fault = false ∧ (∀ c, t.pressed c = false) ∧
      (∀ px py, t.fb.pixel px py = false) ∧ t.changes = []) ∧
    (3584 < image.length → construct image = .refused (.imageTooLong image.length))

/-! ## The four parameters -/

/-- The machine at every value of the spec's four parameters (decisions D5, D8, D11, D14): at this hardware's values it is
the machine of `step`, and away from the points they decide (no wait that would not hold, the access in memory, `VF` no
operand of a flag-writing operation, a digit in `LD F`) every choice of values steps alike. -/
def Obligations.ParametersMatterOnlyAtTheirPoints : Prop :=
  (∀ s : State, stepWith hardware s = step s) ∧
  (∀ (p : Params) (s : State), (s.waiting = true → p.waitHolds = true) →
    (∀ i, decodeWord s.fetch = .ok i → AccessInMemory i s ∧ usesVFAsOperand i = false ∧
      ∀ x, i = .ldF x → (s.reg x).toNat ≤ 15) →
    stepWith p s = step s)
end

