-- ==== Sys2Proof/Laws/Decode.lean ====
section
/-! SUPPORT. What the field extractors read from a word made of a pattern and operand fields in their places
(30_encoding.md R71, R77), format by format, and byte order both ways. -/

namespace Sys2Proof

/-- The bits of a word of two bytes: the low byte's, then the high byte's (20_memory.md R53). -/
theorem getLsbD_wordOfBytes (hi lo : Byte) (i : Nat) :
    (wordOfBytes hi lo).getLsbD i = if i < 8 then lo.getLsbD i else hi.getLsbD (i - 8) :=
  BitVec.getLsbD_append

/-- The two bytes of a word, joined again, are the word (20_memory.md R53). -/
theorem wordOfBytes_hi_lo (op : Word) : wordOfBytes (hiByte op) (loByte op) = op := by
  apply BitVec.eq_of_getLsbD_eq
  intro i hi
  rw [getLsbD_wordOfBytes]
  interval_cases i <;> simp [hiByte, loByte]

/-- The high byte of a joined word. -/
theorem hiByte_wordOfBytes (hi lo : Byte) : hiByte (wordOfBytes hi lo) = hi := by
  apply BitVec.eq_of_getLsbD_eq
  intro i h
  rw [hiByte, BitVec.getLsbD_extractLsb', getLsbD_wordOfBytes]
  simp [h, show ¬ 8 + i < 8 by omega]

/-- The low byte of a joined word. -/
theorem loByte_wordOfBytes (hi lo : Byte) : loByte (wordOfBytes hi lo) = lo := by
  apply BitVec.eq_of_getLsbD_eq
  intro i h
  rw [loByte, BitVec.getLsbD_extractLsb', getLsbD_wordOfBytes]
  simp [h]

/-- A field whose bits are those of a 4-bit operand reads as the operand. -/
theorem nibbleBits_toFin (r : Fin 16) : (nibbleBits r).toFin = r := rfl

/-- Bits a mask keeps are zero where the masked word is. -/
theorem getElem_of_and_eq_zero {a m : Word} (h : a &&& m = 0) {i : Nat} (hi : i < 16) (hm : m[i] = true) :
    a[i] = false := by
  have := congrArg (BitVec.getLsbD · i) h
  simpa [BitVec.getLsbD_eq_getElem hi, hm] using this

/-- Format NNN: the address is read back. -/
theorem fieldNNN_place {p : Word} (h : p &&& 0x0FFF = 0) (nnn : Addr) : fieldNNN (p ||| zext16 nnn) = nnn := by
  have hp : ∀ i (hi : i < 12), p[i] = false :=
    fun i hi => getElem_of_and_eq_zero h (by omega) (by interval_cases i <;> simp)
  ext i hi
  interval_cases i <;> simp [fieldNNN, hp]

/-- Format XKK: both operands are read back. -/
theorem fields_place_xkk {p : Word} (h : p &&& 0x0FFF = 0) (x : Reg) (kk : Byte) :
    fieldX (p ||| placeX x ||| zext16 kk) = x ∧ fieldKK (p ||| placeX x ||| zext16 kk) = kk := by
  have hp : ∀ i (hi : i < 12), p[i] = false :=
    fun i hi => getElem_of_and_eq_zero h (by omega) (by interval_cases i <;> simp)
  constructor
  · have : (p ||| placeX x ||| zext16 kk).extractLsb' 8 4 = nibbleBits x := by
      ext i hi
      interval_cases i <;> simp [placeX, hp]
    rw [fieldX, this, nibbleBits_toFin]
  · ext i hi
    interval_cases i <;> simp [fieldKK, placeX, hp]

/-- Format XY: both operands are read back. -/
theorem fields_place_xy {p : Word} (h : p &&& 0x0FF0 = 0) (x y : Reg) :
    fieldX (p ||| placeX x ||| placeY y) = x ∧ fieldY (p ||| placeX x ||| placeY y) = y := by
  have hp : ∀ i (hi : i < 12), 4 ≤ i → p[i] = false :=
    fun i hi h4 => getElem_of_and_eq_zero h (by omega) (by interval_cases i <;> simp)
  constructor
  · have : (p ||| placeX x ||| placeY y).extractLsb' 8 4 = nibbleBits x := by
      ext i hi
      interval_cases i <;> simp [placeX, placeY, hp]
    rw [fieldX, this, nibbleBits_toFin]
  · have : (p ||| placeX x ||| placeY y).extractLsb' 4 4 = nibbleBits y := by
      ext i hi
      interval_cases i <;> simp [placeX, placeY, hp]
    rw [fieldY, this, nibbleBits_toFin]

/-- Format XYN: the three operands are read back. -/
theorem fields_place_xyn {p : Word} (h : p &&& 0x0FFF = 0) (x y : Reg) (n : Nibble) :
    fieldX (p ||| placeX x ||| placeY y ||| placeN n) = x ∧ fieldY (p ||| placeX x ||| placeY y ||| placeN n) = y ∧
      fieldN (p ||| placeX x ||| placeY y ||| placeN n) = n := by
  have hp : ∀ i (hi : i < 12), p[i] = false :=
    fun i hi => getElem_of_and_eq_zero h (by omega) (by interval_cases i <;> simp)
  refine ⟨?_, ?_, ?_⟩
  · have : (p ||| placeX x ||| placeY y ||| placeN n).extractLsb' 8 4 = nibbleBits x := by
      ext i hi
      interval_cases i <;> simp [placeX, placeY, placeN, hp]
    rw [fieldX, this, nibbleBits_toFin]
  · have : (p ||| placeX x ||| placeY y ||| placeN n).extractLsb' 4 4 = nibbleBits y := by
      ext i hi
      interval_cases i <;> simp [placeX, placeY, placeN, hp]
    rw [fieldY, this, nibbleBits_toFin]
  · have : (p ||| placeX x ||| placeY y ||| placeN n).extractLsb' 0 4 = nibbleBits n := by
      ext i hi
      interval_cases i <;> simp [placeX, placeY, placeN, hp]
    rw [fieldN, this, nibbleBits_toFin]

/-- Format X, and SHR and SHL with `y = 0`: the register is read back. -/
theorem fieldX_place {p : Word} (h : p &&& 0x0F00 = 0) (x : Reg) : fieldX (p ||| placeX x) = x := by
  have hp : ∀ i (hi : i < 12), 8 ≤ i → p[i] = false :=
    fun i hi h8 => getElem_of_and_eq_zero h (by omega) (by interval_cases i <;> simp)
  have : (p ||| placeX x).extractLsb' 8 4 = nibbleBits x := by
    ext i hi
    interval_cases i <;> simp [placeX, hp]
  rw [fieldX, this, nibbleBits_toFin]

/-- A row matches its pattern with anything put where its mask is clear (30_encoding.md R74). -/
theorem Row.matches_place (r : Row) {rest : Word} (h : rest &&& r.mask = 0) : r.matches (r.pattern ||| rest) = true := by
  simp only [Row.matches, beq_iff_eq]
  ext i hi
  have hz : rest[i] = true → r.mask[i] = false := by
    intro hr
    rw [BitVec.and_comm] at h
    by_contra hm
    have := getElem_of_and_eq_zero h hi (i := i) (by simpa using hr)
    simp_all
  cases hr : r.pattern[i] <;> cases hm : r.mask[i] <;> simp_all

/-- `nnn` in its place is clear where the mask F000 is set. -/
theorem zext16_addr_and (nnn : Addr) : zext16 nnn &&& 0xF000 = 0 := by
  ext i hi
  interval_cases i <;> simp

/-- `kk` in its place is clear where the mask F000 is set. -/
theorem zext16_byte_and (kk : Byte) : zext16 kk &&& 0xF000 = 0 := by
  ext i hi
  interval_cases i <;> simp

/-- `x` in its place is clear where a mask that leaves bits 11..8 free is set. -/
theorem placeX_and {m : Word} (h : m &&& 0x0F00 = 0) (x : Reg) : placeX x &&& m = 0 := by
  have hm : ∀ i (hi : i < 12), 8 ≤ i → m[i] = false :=
    fun i hi h8 => getElem_of_and_eq_zero h (by omega) (by interval_cases i <;> simp)
  ext i hi
  interval_cases i <;> simp [placeX, hm]

/-- `y` in its place is clear where a mask that leaves bits 7..4 free is set. -/
theorem placeY_and {m : Word} (h : m &&& 0x00F0 = 0) (y : Reg) : placeY y &&& m = 0 := by
  have hm : ∀ i (hi : i < 8), 4 ≤ i → m[i] = false :=
    fun i hi h4 => getElem_of_and_eq_zero h (by omega) (by interval_cases i <;> simp)
  ext i hi
  interval_cases i <;> simp [placeY, hm]

/-- `n` in its place is clear where the mask F000 is set. -/
theorem placeN_and (n : Nibble) : placeN n &&& 0xF000 = 0 := by
  ext i hi
  interval_cases i <;> simp [placeN]

/-- Two parts clear under a mask are clear together. -/
theorem or_and_eq_zero {a b m : Word} (ha : a &&& m = 0) (hb : b &&& m = 0) : (a ||| b) &&& m = 0 := by
  ext i hi
  cases hm : m[i]
  · simp [hm]
  · simp [getElem_of_and_eq_zero ha hi hm, getElem_of_and_eq_zero hb hi hm]

end Sys2Proof
end

