-- ==== Sys2Proof/Laws/Framebuffer.lean ====
section
/-! SUPPORT. The laws of the framebuffer: a flip changes one pixel, clearing clears every one, and the change list
between two framebuffers is the set of pixels that differ. -/

namespace Sys2Proof.Machine

/-- A flip inverts its pixel and leaves every other. -/
theorem Framebuffer.pixel_flip (fb : Framebuffer) (x px : Column) (y py : PixelRow) :
    (fb.flip x y).pixel px py = if px = x ∧ py = y then !fb.pixel px py else fb.pixel px py := by
  unfold flip pixel
  by_cases hx : px = x
  · subst hx
    by_cases hy : py = y
    · subst hy
      simp
    · have : y.val ≠ py.val := fun e => hy (Fin.ext e.symm)
      simp [hy, Vector.getElem_set_ne _ _ this]
  · have : x.val ≠ px.val := fun e => hx (Fin.ext e.symm)
    simp [hx, Vector.getElem_set_ne _ _ this]

/-- Every pixel of the cleared framebuffer is false. -/
theorem Framebuffer.pixel_clear (x : Column) (y : PixelRow) : Framebuffer.clear.pixel x y = false := by
  simp [clear, pixel]

/-- Framebuffers with equal pixels are equal. -/
theorem Framebuffer.ext_pixel {a b : Framebuffer} (h : ∀ x y, a.pixel x y = b.pixel x y) : a = b :=
  Vector.ext fun i hi => Vector.ext fun j hj => h ⟨i, hi⟩ ⟨j, hj⟩

/-- The changes of a column are those of its rows where the two lists differ. -/
theorem mem_columnChanges {x y : Nat} {as bs : List Bool} {p : PixelChange} :
    p ∈ columnChanges x y as bs ↔
      ∃ j, ∃ a b, as[j]? = some a ∧ bs[j]? = some b ∧ a ≠ b ∧ p = ⟨columnOf x, rowOf (y + j), b⟩ := by
  induction as generalizing y bs with
  | nil => simp [columnChanges]
  | cons a as ih =>
    cases bs with
    | nil => simp [columnChanges]
    | cons b bs =>
      have tail : (∃ j, ∃ a' b', (a :: as)[j + 1]? = some a' ∧ (b :: bs)[j + 1]? = some b' ∧ a' ≠ b' ∧
          p = ⟨columnOf x, rowOf (y + (j + 1)), b'⟩) ↔ p ∈ columnChanges x (y + 1) as bs := by
        rw [ih]
        simp only [List.getElem?_cons_succ]
        constructor <;> rintro ⟨j, a', b', h1, h2, h3, h4⟩ <;> refine ⟨j, a', b', h1, h2, h3, ?_⟩
        · rw [h4, show y + 1 + j = y + (j + 1) by omega]
        · rw [h4, show y + 1 + j = y + (j + 1) by omega]
      rw [columnChanges]
      constructor
      · intro h
        split at h
        · obtain ⟨j, rest⟩ := tail.2 h
          exact ⟨j + 1, rest⟩
        · rename_i hab
          rcases List.mem_cons.1 h with h | h
          · exact ⟨0, a, b, rfl, rfl, hab, by simpa using h⟩
          · obtain ⟨j, rest⟩ := tail.2 h
            exact ⟨j + 1, rest⟩
      · rintro ⟨j, a', b', h1, h2, h3, h4⟩
        cases j with
        | zero =>
          simp only [List.getElem?_cons_zero, Option.some.injEq] at h1 h2
          subst h1 h2
          simp [h3, h4]
        | succ j =>
          have := tail.1 ⟨j, a', b', h1, h2, h3, h4⟩
          split
          · exact this
          · exact List.mem_cons_of_mem _ this

/-- The changes from a column on are those of its columns. -/
theorem mem_changesFrom {x : Nat} {as bs : List (Vector Bool 32)} {p : PixelChange} :
    p ∈ changesFrom x as bs ↔
      ∃ i, ∃ a b, as[i]? = some a ∧ bs[i]? = some b ∧ p ∈ columnChanges (x + i) 0 a.toList b.toList := by
  induction as generalizing x bs with
  | nil => simp [changesFrom]
  | cons a as ih =>
    cases bs with
    | nil => simp [changesFrom]
    | cons b bs =>
      rw [changesFrom, List.mem_append, ih]
      constructor
      · rintro (h | ⟨i, a', b', h1, h2, h3⟩)
        · exact ⟨0, a, b, rfl, rfl, h⟩
        · exact ⟨i + 1, a', b', h1, h2, by rwa [show x + (i + 1) = x + 1 + i by omega]⟩
      · rintro ⟨i, a', b', h1, h2, h3⟩
        cases i with
        | zero =>
          simp only [List.getElem?_cons_zero, Option.some.injEq] at h1 h2
          subst h1 h2
          exact .inl h3
        | succ i => exact .inr ⟨i, a', b', h1, h2, by rwa [show x + 1 + i = x + (i + 1) by omega]⟩

/-- Two framebuffers that are equal have an empty change list. -/
theorem Framebuffer.changes_self (fb : Framebuffer) : Framebuffer.changes fb fb = [] := by
  rw [List.eq_nil_iff_forall_not_mem]
  intro p h
  obtain ⟨i, a, b, h1, h2, h3⟩ := mem_changesFrom.1 h
  obtain ⟨j, c, d, h4, h5, h6, -⟩ := mem_columnChanges.1 h3
  rw [h1] at h2
  cases h2
  rw [h4] at h5
  exact h6 (Option.some.inj h5)

end Sys2Proof.Machine
end

