-- ==== Sys2Proof/Laws/Memory.lean ====
section
/-! SUPPORT. The laws of memory: every operation keeps the canonical form, a write is read back, and it changes no
other byte. -/

namespace Sys2Proof.Machine.Memory

/-- What the canonical form says of a list with a first entry. -/
theorem wfFrom_cons {lo a : Nat} {v : Byte} {m : Memory} :
    wfFrom lo ((a, v) :: m) = true ↔
      lo ≤ a ∧ a < 4096 ∧ v ≠ unlisted a ∧ wfFrom (a + 1) m = true := by
  simp [wfFrom, and_assoc]

/-- The canonical form from an address holds from every lower one. -/
theorem wfFrom_mono {lo lo' : Nat} {m : Memory} (h : wfFrom lo m = true) (hl : lo' ≤ lo) : wfFrom lo' m = true := by
  cases m with
  | nil => rfl
  | cons p m =>
    obtain ⟨a, v⟩ := p
    rw [wfFrom_cons] at h ⊢
    exact ⟨hl.trans h.1, h.2⟩

/-- An address below every entry reads as unlisted. -/
theorem read_below {lo a : Nat} {m : Memory} (h : wfFrom lo m = true) (ha : a < lo) : m.read a = unlisted a := by
  cases m with
  | nil => rfl
  | cons p m =>
    obtain ⟨b, w⟩ := p
    rw [wfFrom_cons] at h
    simp [read, show a < b by omega]

/-- Storing keeps the canonical form. -/
theorem put_wfFrom {lo a : Nat} {m : Memory} (v : Byte) (h : wfFrom lo m = true) (hlo : lo ≤ a)
    (ha : a < 4096) : wfFrom lo (m.put a v) = true := by
  induction m generalizing lo with
  | nil =>
    rw [put]
    split
    · rfl
    · rename_i hv
      exact wfFrom_cons.2 ⟨hlo, ha, hv, rfl⟩
  | cons p m ih =>
    obtain ⟨b, w⟩ := p
    have hc := wfFrom_cons.1 h
    rw [put]
    split
    · rename_i hab
      split
      · exact h
      · rename_i hv
        exact wfFrom_cons.2 ⟨hlo, ha, hv, wfFrom_cons.2 ⟨hab, hc.2⟩⟩
    · split
      · rename_i hab
        subst hab
        split
        · exact wfFrom_mono hc.2.2.2 (by omega)
        · rename_i hv
          exact wfFrom_cons.2 ⟨hlo, ha, hv, hc.2.2.2⟩
      · exact wfFrom_cons.2 ⟨hc.1, hc.2.1, hc.2.2.1, ih hc.2.2.2 (by omega)⟩

/-- The stored byte is read back, and every other address reads as before. -/
theorem read_put {lo a : Nat} {m : Memory} (v : Byte) (h : wfFrom lo m = true) (c : Nat) :
    (m.put a v).read c = if c = a then v else m.read c := by
  induction m generalizing lo with
  | nil =>
    rw [put]
    split <;> rename_i hv
    · by_cases hc : c = a <;> simp [read, hc, hv]
    · by_cases hc : c = a
      · simp [read, hc]
      · simp [read, hc]
  | cons p m ih =>
    obtain ⟨b, w⟩ := p
    have hw := wfFrom_cons.1 h
    rw [put]
    by_cases hab : a < b
    · by_cases hv : v = unlisted a
      · by_cases hc : c = a
        · subst hc; simp [read, hab, hv]
        · simp [hab, hv, hc]
      · by_cases hc : c = a
        · subst hc; simp [read, hab, hv]
        · by_cases hca : c < a
          · simp [read, hab, hv, hc, hca, hca.trans hab]
          · simp [hab, hv, hc, read, hca]
    · by_cases heq : a = b
      · subst heq
        by_cases hv : v = unlisted a
        · by_cases hc : c = a
          · subst hc
            simp [hv, read_below hw.2.2.2 (Nat.lt_succ_self c)]
          · by_cases hca : c < a
            · simp [read, hv, hc, hca, read_below hw.2.2.2 (by omega : c < a + 1)]
            · simp [read, hv, hc, hca]
        · by_cases hc : c = a
          · subst hc; simp [read, hv]
          · simp [read, hv, hc]
      · by_cases hcb : c < b
        · have : c ≠ a := by omega
          simp [read, hab, heq, hcb, this]
        · by_cases hcb' : c = b
          · subst hcb'
            have : c ≠ a := fun e => heq e.symm
            simp [read, hab, heq, this]
          · simp [read, hab, heq, hcb, hcb', ih hw.2.2.2]

/-- Every write keeps the canonical form (the address need not lie in memory: then nothing is stored). -/
theorem write_wf {m : Memory} (a : Nat) (v : Byte) (h : m.wf = true) : (m.write a v).wf = true := by
  unfold write
  split
  · rename_i ha
    exact put_wfFrom v h (Nat.zero_le a) ha
  · exact h

/-- A write in memory is read back, and no other byte changes (20_memory.md R52). -/
theorem read_write {m : Memory} {a : Nat} (v : Byte) (h : m.wf = true) (ha : a < 4096) (c : Nat) :
    (m.write a v).read c = if c = a then v else m.read c := by
  rw [write, if_pos ha]
  exact read_put v h c

/-- A write changes no other byte, wherever it goes. -/
theorem read_write_ne {m : Memory} {a c : Nat} (v : Byte) (h : m.wf = true) (hc : c ≠ a) :
    (m.write a v).read c = m.read c := by
  unfold write
  split
  · rw [read_put v h c, if_neg hc]
  · rfl

/-- Writing bytes in a row keeps the canonical form. -/
theorem writeBytes_wf {m : Memory} (a : Nat) (vs : List Byte) (h : m.wf = true) : (m.writeBytes a vs).wf = true := by
  induction vs generalizing m a with
  | nil => exact h
  | cons v vs ih => exact ih (a + 1) (write_wf a v h)

/-- What every address reads as after bytes were written in a row inside memory. -/
theorem read_writeBytes {m : Memory} (a : Nat) (vs : List Byte) (h : m.wf = true)
    (ha : a + vs.length ≤ 4096) (c : Nat) :
    (m.writeBytes a vs).read c = if a ≤ c ∧ c < a + vs.length then vs.getD (c - a) 0 else m.read c := by
  induction vs generalizing m a with
  | nil => simp [writeBytes, show ¬(a ≤ c ∧ c < a) by omega]
  | cons v vs ih =>
    simp only [List.length_cons] at ha ⊢
    rw [writeBytes, ih (a + 1) (write_wf a v h) (by omega), read_write v h (by omega)]
    by_cases hc : c = a
    · subst hc
      simp
    · by_cases hr : a ≤ c ∧ c < a + (vs.length + 1)
      · rw [if_pos (by omega), if_pos hr, show c - a = (c - (a + 1)) + 1 by omega]
        rfl
      · rw [if_neg (by omega), if_neg hr, if_neg hc]

end Sys2Proof.Machine.Memory

namespace Sys2Proof.Machine

/-- Under this hardware's policy an access lands where it is addressed. -/
@[simp] theorem landing_fault (a : Nat) : landing .fault a = a := rfl

/-- Storing from an address on keeps the canonical form under either policy. -/
theorem storeFrom_wf (p : OobPolicy) (a : Nat) {m : Memory} (vs : List Byte) (h : m.wf = true) :
    (storeFrom p a m vs).wf = true := by
  induction vs generalizing m a with
  | nil => exact h
  | cons v vs ih => exact ih (a + 1) (Memory.write_wf _ v h)

/-- Under this hardware's policy the bytes of a store go to addresses in a row. -/
theorem storeFrom_fault (a : Nat) (m : Memory) (vs : List Byte) : storeFrom .fault a m vs = m.writeBytes a vs := by
  induction vs generalizing m a with
  | nil => rfl
  | cons v vs ih => exact ih (a + 1) _

/-- Where every address of an access is in memory, the policies store alike. -/
theorem storeFrom_in_memory (p : OobPolicy) (a : Nat) (m : Memory) (vs : List Byte)
    (h : a + vs.length ≤ 4096) : storeFrom p a m vs = m.writeBytes a vs := by
  induction vs generalizing m a with
  | nil => rfl
  | cons v vs ih =>
    simp only [List.length_cons] at h
    have ha : landing p a = a := by
      cases p
      · rfl
      · exact Nat.mod_eq_of_lt (show a < 4096 by omega)
    rw [storeFrom, ha, ih (a + 1) _ (by omega)]
    rfl

end Sys2Proof.Machine
end

