-- ==== Sys2Proof/Laws/State.lean ====
section
/-! SUPPORT. One lemma per field and update of the state, true by rfl: no later proof unfolds a record update. -/

namespace Sys2Proof.Machine.State

variable (s : State)

/-! ## `setReg` -/

@[simp] theorem setReg_V (x : Reg) (v : Byte) : (s.setReg x v).V = s.V.set x.val v := rfl
@[simp] theorem setReg_I (x : Reg) (v : Byte) : (s.setReg x v).I = s.I := rfl
@[simp] theorem setReg_pc (x : Reg) (v : Byte) : (s.setReg x v).pc = s.pc := rfl
@[simp] theorem setReg_DT (x : Reg) (v : Byte) : (s.setReg x v).DT = s.DT := rfl
@[simp] theorem setReg_ST (x : Reg) (v : Byte) : (s.setReg x v).ST = s.ST := rfl
@[simp] theorem setReg_sp (x : Reg) (v : Byte) : (s.setReg x v).sp = s.sp := rfl
@[simp] theorem setReg_stack (x : Reg) (v : Byte) : (s.setReg x v).stack = s.stack := rfl
@[simp] theorem setReg_waiting (x : Reg) (v : Byte) : (s.setReg x v).waiting = s.waiting := rfl
@[simp] theorem setReg_waitTarget (x : Reg) (v : Byte) : (s.setReg x v).waitTarget = s.waitTarget := rfl
@[simp] theorem setReg_fault (x : Reg) (v : Byte) : (s.setReg x v).fault = s.fault := rfl
@[simp] theorem setReg_keys (x : Reg) (v : Byte) : (s.setReg x v).keys = s.keys := rfl
@[simp] theorem setReg_fb (x : Reg) (v : Byte) : (s.setReg x v).fb = s.fb := rfl
@[simp] theorem setReg_mem (x : Reg) (v : Byte) : (s.setReg x v).mem = s.mem := rfl
@[simp] theorem setReg_changes (x : Reg) (v : Byte) : (s.setReg x v).changes = s.changes := rfl
@[simp] theorem setReg_stepResult (x : Reg) (v : Byte) : (s.setReg x v).stepResult = s.stepResult := rfl
@[simp] theorem setReg_draws (x : Reg) (v : Byte) : (s.setReg x v).draws = s.draws := rfl

/-! ## `advance` -/

@[simp] theorem advance_V : (s.advance).V = s.V := rfl
@[simp] theorem advance_I : (s.advance).I = s.I := rfl
@[simp] theorem advance_pc : (s.advance).pc = s.pc + 2 := rfl
@[simp] theorem advance_DT : (s.advance).DT = s.DT := rfl
@[simp] theorem advance_ST : (s.advance).ST = s.ST := rfl
@[simp] theorem advance_sp : (s.advance).sp = s.sp := rfl
@[simp] theorem advance_stack : (s.advance).stack = s.stack := rfl
@[simp] theorem advance_waiting : (s.advance).waiting = s.waiting := rfl
@[simp] theorem advance_waitTarget : (s.advance).waitTarget = s.waitTarget := rfl
@[simp] theorem advance_fault : (s.advance).fault = s.fault := rfl
@[simp] theorem advance_keys : (s.advance).keys = s.keys := rfl
@[simp] theorem advance_fb : (s.advance).fb = s.fb := rfl
@[simp] theorem advance_mem : (s.advance).mem = s.mem := rfl
@[simp] theorem advance_changes : (s.advance).changes = s.changes := rfl
@[simp] theorem advance_stepResult : (s.advance).stepResult = s.stepResult := rfl
@[simp] theorem advance_draws : (s.advance).draws = s.draws := rfl

/-! ## `jump` -/

@[simp] theorem jump_V (target : Word) : (s.jump target).V = s.V := rfl
@[simp] theorem jump_I (target : Word) : (s.jump target).I = s.I := rfl
@[simp] theorem jump_pc (target : Word) : (s.jump target).pc = target := rfl
@[simp] theorem jump_DT (target : Word) : (s.jump target).DT = s.DT := rfl
@[simp] theorem jump_ST (target : Word) : (s.jump target).ST = s.ST := rfl
@[simp] theorem jump_sp (target : Word) : (s.jump target).sp = s.sp := rfl
@[simp] theorem jump_stack (target : Word) : (s.jump target).stack = s.stack := rfl
@[simp] theorem jump_waiting (target : Word) : (s.jump target).waiting = s.waiting := rfl
@[simp] theorem jump_waitTarget (target : Word) : (s.jump target).waitTarget = s.waitTarget := rfl
@[simp] theorem jump_fault (target : Word) : (s.jump target).fault = s.fault := rfl
@[simp] theorem jump_keys (target : Word) : (s.jump target).keys = s.keys := rfl
@[simp] theorem jump_fb (target : Word) : (s.jump target).fb = s.fb := rfl
@[simp] theorem jump_mem (target : Word) : (s.jump target).mem = s.mem := rfl
@[simp] theorem jump_changes (target : Word) : (s.jump target).changes = s.changes := rfl
@[simp] theorem jump_stepResult (target : Word) : (s.jump target).stepResult = s.stepResult := rfl
@[simp] theorem jump_draws (target : Word) : (s.jump target).draws = s.draws := rfl

/-! ## `push` -/

@[simp] theorem push_V (v : Word) : (s.push v).V = s.V := rfl
@[simp] theorem push_I (v : Word) : (s.push v).I = s.I := rfl
@[simp] theorem push_pc (v : Word) : (s.push v).pc = s.pc := rfl
@[simp] theorem push_DT (v : Word) : (s.push v).DT = s.DT := rfl
@[simp] theorem push_ST (v : Word) : (s.push v).ST = s.ST := rfl
@[simp] theorem push_sp (v : Word) : (s.push v).sp = s.sp + 1 := rfl
@[simp] theorem push_stack (v : Word) : (s.push v).stack = s.stack.set s.sp.toNat v s.sp.isLt := rfl
@[simp] theorem push_waiting (v : Word) : (s.push v).waiting = s.waiting := rfl
@[simp] theorem push_waitTarget (v : Word) : (s.push v).waitTarget = s.waitTarget := rfl
@[simp] theorem push_fault (v : Word) : (s.push v).fault = s.fault := rfl
@[simp] theorem push_keys (v : Word) : (s.push v).keys = s.keys := rfl
@[simp] theorem push_fb (v : Word) : (s.push v).fb = s.fb := rfl
@[simp] theorem push_mem (v : Word) : (s.push v).mem = s.mem := rfl
@[simp] theorem push_changes (v : Word) : (s.push v).changes = s.changes := rfl
@[simp] theorem push_stepResult (v : Word) : (s.push v).stepResult = s.stepResult := rfl
@[simp] theorem push_draws (v : Word) : (s.push v).draws = s.draws := rfl

/-! ## `popPc` -/

@[simp] theorem popPc_V : (s.popPc).V = s.V := rfl
@[simp] theorem popPc_I : (s.popPc).I = s.I := rfl
@[simp] theorem popPc_pc : (s.popPc).pc = s.slot (s.sp - 1) := rfl
@[simp] theorem popPc_DT : (s.popPc).DT = s.DT := rfl
@[simp] theorem popPc_ST : (s.popPc).ST = s.ST := rfl
@[simp] theorem popPc_sp : (s.popPc).sp = s.sp - 1 := rfl
@[simp] theorem popPc_stack : (s.popPc).stack = s.stack := rfl
@[simp] theorem popPc_waiting : (s.popPc).waiting = s.waiting := rfl
@[simp] theorem popPc_waitTarget : (s.popPc).waitTarget = s.waitTarget := rfl
@[simp] theorem popPc_fault : (s.popPc).fault = s.fault := rfl
@[simp] theorem popPc_keys : (s.popPc).keys = s.keys := rfl
@[simp] theorem popPc_fb : (s.popPc).fb = s.fb := rfl
@[simp] theorem popPc_mem : (s.popPc).mem = s.mem := rfl
@[simp] theorem popPc_changes : (s.popPc).changes = s.changes := rfl
@[simp] theorem popPc_stepResult : (s.popPc).stepResult = s.stepResult := rfl
@[simp] theorem popPc_draws : (s.popPc).draws = s.draws := rfl

/-! ## `idle` -/

@[simp] theorem idle_V (result : Bool) : (s.idle result).V = s.V := rfl
@[simp] theorem idle_I (result : Bool) : (s.idle result).I = s.I := rfl
@[simp] theorem idle_pc (result : Bool) : (s.idle result).pc = s.pc := rfl
@[simp] theorem idle_DT (result : Bool) : (s.idle result).DT = s.DT := rfl
@[simp] theorem idle_ST (result : Bool) : (s.idle result).ST = s.ST := rfl
@[simp] theorem idle_sp (result : Bool) : (s.idle result).sp = s.sp := rfl
@[simp] theorem idle_stack (result : Bool) : (s.idle result).stack = s.stack := rfl
@[simp] theorem idle_waiting (result : Bool) : (s.idle result).waiting = s.waiting := rfl
@[simp] theorem idle_waitTarget (result : Bool) : (s.idle result).waitTarget = s.waitTarget := rfl
@[simp] theorem idle_fault (result : Bool) : (s.idle result).fault = s.fault := rfl
@[simp] theorem idle_keys (result : Bool) : (s.idle result).keys = s.keys := rfl
@[simp] theorem idle_fb (result : Bool) : (s.idle result).fb = s.fb := rfl
@[simp] theorem idle_mem (result : Bool) : (s.idle result).mem = s.mem := rfl
@[simp] theorem idle_changes (result : Bool) : (s.idle result).changes = [] := rfl
@[simp] theorem idle_stepResult (result : Bool) : (s.idle result).stepResult = result := rfl
@[simp] theorem idle_draws (result : Bool) : (s.idle result).draws = s.draws := rfl

/-! ## `finish` -/

@[simp] theorem finish_V (before : Framebuffer) : (s.finish before).V = s.V := rfl
@[simp] theorem finish_I (before : Framebuffer) : (s.finish before).I = s.I := rfl
@[simp] theorem finish_pc (before : Framebuffer) : (s.finish before).pc = s.pc := rfl
@[simp] theorem finish_DT (before : Framebuffer) : (s.finish before).DT = s.DT := rfl
@[simp] theorem finish_ST (before : Framebuffer) : (s.finish before).ST = s.ST := rfl
@[simp] theorem finish_sp (before : Framebuffer) : (s.finish before).sp = s.sp := rfl
@[simp] theorem finish_stack (before : Framebuffer) : (s.finish before).stack = s.stack := rfl
@[simp] theorem finish_waiting (before : Framebuffer) : (s.finish before).waiting = s.waiting := rfl
@[simp] theorem finish_waitTarget (before : Framebuffer) : (s.finish before).waitTarget = s.waitTarget := rfl
@[simp] theorem finish_fault (before : Framebuffer) : (s.finish before).fault = s.fault := rfl
@[simp] theorem finish_keys (before : Framebuffer) : (s.finish before).keys = s.keys := rfl
@[simp] theorem finish_fb (before : Framebuffer) : (s.finish before).fb = s.fb := rfl
@[simp] theorem finish_mem (before : Framebuffer) : (s.finish before).mem = s.mem := rfl
@[simp] theorem finish_changes (before : Framebuffer) : (s.finish before).changes = Framebuffer.changes before s.fb := rfl
@[simp] theorem finish_stepResult (before : Framebuffer) : (s.finish before).stepResult = !s.fault := rfl
@[simp] theorem finish_draws (before : Framebuffer) : (s.finish before).draws = s.draws := rfl

/-! ## Reads through the accessors -/

/-- A register written reads as the value written. -/
theorem reg_setReg_same (x : Reg) (v : Byte) : (s.setReg x v).reg x = v := by simp [reg]

/-- Every other register reads as before. -/
theorem reg_setReg_ne {x k : Reg} (v : Byte) (h : k ≠ x) : (s.setReg x v).reg k = s.reg k := by
  have : x.val ≠ k.val := fun e => h (Fin.ext e.symm)
  simp [reg, Vector.getElem_set_ne _ _ this]

/-- Both cases of a register write in one equation. -/
theorem reg_setReg (x k : Reg) (v : Byte) : (s.setReg x v).reg k = if k = x then v else s.reg k := by
  by_cases h : k = x
  · simp [h, reg_setReg_same]
  · simp [h, reg_setReg_ne s v h]

/-- A register reads from `V` alone. -/
theorem reg_congr {s t : State} (h : t.V = s.V) (k : Reg) : t.reg k = s.reg k := by simp [reg, h]

/-- A byte reads from `mem` alone. -/
theorem readByte_congr {s t : State} (h : t.mem = s.mem) (a : Nat) : t.readByte a = s.readByte a := by
  simp [readByte, h]

/-- The pushed slot holds the value. -/
theorem slot_push_same (v : Word) : (s.push v).slot s.sp = v := by simp [slot]

/-- Every other slot holds what it held. -/
theorem slot_push_ne {k : BitVec 4} (v : Word) (h : k ≠ s.sp) : (s.push v).slot k = s.slot k := by
  have : s.sp.toNat ≠ k.toNat := fun e => h (BitVec.eq_of_toNat_eq e.symm)
  simp [slot, Vector.getElem_set_ne _ _ this]

/-- A slot reads from `stack` alone. -/
theorem slot_congr {s t : State} (h : t.stack = s.stack) (k : BitVec 4) : t.slot k = s.slot k := by simp [slot, h]

/-- Two register files with equal registers are equal. -/
theorem V_ext {s t : State} (h : ∀ k : Reg, t.reg k = s.reg k) : t.V = s.V :=
  Vector.ext fun i hi => h ⟨i, hi⟩

end Sys2Proof.Machine.State
end

