-- ==== Sys2Proof/Laws/Operands.lean ====
section
/-! SUPPORT. One lemma per shared operation of Machine/Operands.lean and Machine/Flags.lean: everything it can do, for
later proofs to cite instead of unfolding it. -/

namespace Sys2Proof.Machine

/-! ## Skips -/

/-- Where a skip goes. -/
theorem skipIf_pc (c : Bool) (s : State) : (skipIf c s).pc = if c then s.pc + 4 else s.pc + 2 := by
  unfold skipIf
  split <;> rfl

/-- A skip changes `pc` alone. -/
theorem skipIf_rest (c : Bool) (s : State) : skipIf c s = { s with pc := (skipIf c s).pc } := by
  unfold skipIf
  split <;> rfl

/-- A code is pressed when it is the code of a key that is down. -/
theorem State.pressed_iff (s : State) (v : Byte) :
    s.pressed v = true ↔ ∃ c : Fin 16, v.toNat = c.val ∧ s.keys[c.val] = true := by
  unfold State.pressed
  split
  · rename_i h
    constructor
    · intro hk
      exact ⟨⟨_, h⟩, rfl, hk⟩
    · rintro ⟨c, hc, hk⟩
      simp only [hc]
      exact hk
  · rename_i h
    simp only [Bool.false_eq_true, false_iff, not_exists, not_and]
    intro c hc
    omega

/-! ## The range test -/

/-- An access in memory is done. -/
theorem ifInRange_ok {last : Nat} (h : last ≤ 0xFFF) (p : OobPolicy) (s done : State) :
    ifInRange p last s done = .next done := by
  cases p <;> simp [ifInRange, rangeTest, h]

/-- Under this hardware's policy an access above 0xFFF faults and does nothing else. -/
theorem ifInRange_raises {last : Nat} (h : 0xFFF < last) (s done : State) :
    ifInRange .fault last s done = .next { s with fault := true } := by
  simp [ifInRange, rangeTest, Nat.not_le.2 h, raise]

/-- The two things a range test can come to. -/
theorem ifInRange_cases (p : OobPolicy) (last : Nat) (s done : State) :
    ifInRange p last s done = .next done ∨
      (p = .fault ∧ 0xFFF < last ∧ ifInRange p last s done = .next { s with fault := true }) := by
  cases p
  · rcases Nat.lt_or_ge 0xFFF last with h | h
    · exact .inr ⟨rfl, h, ifInRange_raises h s done⟩
    · exact .inl (ifInRange_ok h _ s done)
  · exact .inl rfl

/-! ## Block transfers -/

/-- The list of registers 0 to x has x + 1 entries. -/
theorem length_regsUpTo (x : Reg) : (regsUpTo x).length = x.val + 1 := by
  revert x
  decide

/-- It holds the registers up to x. -/
theorem mem_regsUpTo {x k : Reg} : k ∈ regsUpTo x ↔ k ≤ x := by
  revert x k
  decide

/-- Register k stands at place k. -/
theorem getElem?_regsUpTo {x k : Reg} (h : k ≤ x) : (regsUpTo x)[k.val]? = some k := by
  revert x k
  decide

/-- What every byte of memory reads as after the registers 0 to x were stored from `a` on. -/
theorem read_store_regs (s : State) (x : Reg) (a : Nat) (h : s.mem.wf = true) (ha : a + x.val ≤ 0xFFF) :
    (∀ k : Reg, k ≤ x → (storeFrom .fault a s.mem ((regsUpTo x).map s.reg)).read (a + k.val) = s.reg k) ∧
    (∀ c, c < a ∨ a + (x.val + 1) ≤ c →
      (storeFrom .fault a s.mem ((regsUpTo x).map s.reg)).read c = s.readByte c) := by
  have hr : ∀ c, (storeFrom .fault a s.mem ((regsUpTo x).map s.reg)).read c =
      if a ≤ c ∧ c < a + (x.val + 1) then ((regsUpTo x).map s.reg).getD (c - a) 0 else s.mem.read c := by
    intro c
    rw [storeFrom_fault, Memory.read_writeBytes _ _ h (by rw [List.length_map, length_regsUpTo]; omega),
      List.length_map, length_regsUpTo]
  constructor
  · intro k hk
    have hkx : k.val ≤ x.val := hk
    rw [hr, if_pos (by omega), show a + k.val - a = k.val by omega, List.getD_eq_getElem?_getD, List.getElem?_map,
      getElem?_regsUpTo hk]
    rfl
  · intro c hc
    rw [hr, if_neg (by omega)]
    rfl

/-- Loading registers changes the register file alone, and each listed register becomes the byte at its address. -/
theorem loadEach_spec (s : State) (ks : List Reg) :
    (∃ V, loadEach .fault s ks = { s with V := V }) ∧
    ∀ k, (loadEach .fault s ks).reg k = if k ∈ ks then s.readByte (s.dataAddr k.val) else s.reg k := by
  induction ks generalizing s with
  | nil => exact ⟨⟨s.V, rfl⟩, fun k => by simp [loadEach]⟩
  | cons k0 ks ih =>
    obtain ⟨⟨V, h1⟩, h2⟩ := ih (s.setReg k0 (s.readByte (s.dataAddr k0.val)))
    have hs : loadEach .fault s (k0 :: ks) = loadEach .fault (s.setReg k0 (s.readByte (s.dataAddr k0.val))) ks := rfl
    refine ⟨⟨V, by rw [hs, h1]; rfl⟩, fun k => ?_⟩
    rw [hs, h2 k]
    by_cases hk : k ∈ ks
    · simp only [hk, List.mem_cons, or_true, if_true]
      rfl
    · by_cases hk0 : k = k0
      · subst hk0
        simp [hk, State.reg_setReg_same]
      · simp [hk, hk0, State.reg_setReg_ne]

/-! ## Flags -/

/-- The comparison flag as a number. -/
theorem flagGreater_toNat (a b : Byte) : (flagGreater a b).toNat = if b.toNat < a.toNat then 1 else 0 := by
  unfold flagGreater flagByte
  split <;> simp_all

/-- The flag of SHR as a number. -/
theorem flagLowBit_toNat (a : Byte) : (flagLowBit a).toNat = a.toNat % 2 := by
  simp [flagLowBit, Nat.and_one_is_mod]

/-- The flag of SHL as a number. -/
theorem flagHighBit_toNat (a : Byte) : (flagHighBit a).toNat = a.toNat / 128 := by
  simp [flagHighBit, Nat.shiftRight_eq_div_pow]

/-- Writing a flag and a result changes the register file alone. -/
theorem flagAndResult_rest (o : VfOrder) (x : Reg) (f r : State → Byte) (s : State) :
    flagAndResult o x f r s = { s with V := (flagAndResult o x f r s).V } := by
  cases o <;> rfl

/-- The destination holds the result of the registers as the flag write left them. -/
theorem flagAndResult_dest (x : Reg) (f r : State → Byte) (s : State) :
    (flagAndResult .sequential x f r s).reg x = r (s.setReg .VF (f s)) := by
  rw [flagAndResult, State.reg_setReg_same]

/-- `VF` holds the flag where it is not the destination. -/
theorem flagAndResult_flag {x : Reg} (h : x ≠ .VF) (f r : State → Byte) (s : State) :
    (flagAndResult .sequential x f r s).reg .VF = f s := by
  rw [flagAndResult, State.reg_setReg_ne _ _ h.symm, State.reg_setReg_same]

/-- Every other register reads as before. -/
theorem flagAndResult_other (o : VfOrder) {x k : Reg} (h : k ≠ x) (hf : k ≠ .VF) (f r : State → Byte) (s : State) :
    (flagAndResult o x f r s).reg k = s.reg k := by
  cases o
  · rw [flagAndResult, State.reg_setReg_ne _ _ h, State.reg_setReg_ne _ _ hf]
  · rw [flagAndResult, State.reg_setReg_ne _ _ hf, State.reg_setReg_ne _ _ h]

/-! ## Sprites -/

/-- The pixel under a set sprite bit is flipped, and a collision noted. -/
def visit (d : Canvas) (p : Column × PixelRow) : Canvas :=
  { fb := d.fb.flip p.1 p.2, collision := d.collision || d.fb.pixel p.1 p.2 }

/-- The pixels under the set bits of one sprite row, column by column. -/
def rowPixels (x0 y0 r : Nat) (b : Byte) : List (Column × PixelRow) :=
  (([0, 1, 2, 3, 4, 5, 6, 7] : List Nat).filter (spriteBit b)).map fun c => (columnOf (x0 + c), rowOf (y0 + r))

/-- The pixels under the set bits of a sprite, in the order DRW visits them. -/
def spritePixels (x0 y0 : Nat) : Nat → List Byte → List (Column × PixelRow)
  | _, [] => []
  | r, b :: bs => rowPixels x0 y0 r b ++ spritePixels x0 y0 (r + 1) bs

/-- Drawing is visiting those pixels in turn. -/
theorem drawRows_eq_visits (x0 y0 r : Nat) (bs : List Byte) (d : Canvas) :
    drawRows x0 y0 r bs d = (spritePixels x0 y0 r bs).foldl visit d := by
  have row : ∀ (b : Byte) (cs : List Nat) (d : Canvas) (r : Nat), cs.foldl (drawBit x0 y0 r b) d =
      ((cs.filter (spriteBit b)).map fun c => (columnOf (x0 + c), rowOf (y0 + r))).foldl visit d := by
    intro b cs
    induction cs with
    | nil => intro d r; rfl
    | cons c cs ih =>
      intro d r
      rw [List.foldl_cons, ih]
      by_cases hb : spriteBit b c = true
      · rw [List.filter_cons_of_pos hb, drawBit, if_pos hb]
        rfl
      · rw [List.filter_cons_of_neg hb, drawBit, if_neg hb]
  induction bs generalizing r d with
  | nil => rfl
  | cons b bs ih => rw [drawRows, spritePixels, List.foldl_append, ih, drawRow, row]; rfl

/-- Visiting pixels that are all different flips exactly them, and collides if one of them was on. -/
theorem visits_spec (ps : List (Column × PixelRow)) (hn : ps.Nodup) (d : Canvas) :
    (∀ px py, (ps.foldl visit d).fb.pixel px py = (d.fb.pixel px py ^^ decide ((px, py) ∈ ps))) ∧
    ((ps.foldl visit d).collision = true ↔ d.collision = true ∨ ∃ p ∈ ps, d.fb.pixel p.1 p.2 = true) := by
  induction ps generalizing d with
  | nil => simp
  | cons p ps ih =>
    obtain ⟨hp, hps⟩ := List.nodup_cons.1 hn
    obtain ⟨h1, h2⟩ := ih hps (visit d p)
    have hv : ∀ px py, (visit d p).fb.pixel px py = (d.fb.pixel px py ^^ decide ((px, py) = p)) := by
      intro px py
      rw [visit, Framebuffer.pixel_flip]
      by_cases h : px = p.1 ∧ py = p.2
      · rw [if_pos h, decide_eq_true (Prod.ext h.1 h.2), Bool.xor_true]
      · rw [if_neg h, decide_eq_false (fun e => h (by rw [← e]; exact ⟨rfl, rfl⟩)), Bool.xor_false]
    rw [List.foldl_cons]
    constructor
    · intro px py
      rw [h1, hv]
      by_cases he : (px, py) = p
      · simp [he, hp]
      · simp [he]
    · rw [h2]
      constructor
      · rintro (h | ⟨q, hq, hon⟩)
        · rw [visit, Bool.or_eq_true] at h
          exact h.imp_right fun h => ⟨p, List.mem_cons_self .., h⟩
        · have hqp : (q.1, q.2) ≠ p := fun e => hp (e ▸ hq)
          rw [hv, decide_eq_false hqp, Bool.xor_false] at hon
          exact .inr ⟨q, List.mem_cons_of_mem _ hq, hon⟩
      · rintro (h | ⟨q, hq, hon⟩)
        · exact .inl (by rw [visit, Bool.or_eq_true]; exact .inl h)
        · rcases List.mem_cons.1 hq with rfl | hq
          · exact .inl (by rw [visit, Bool.or_eq_true]; exact .inr hon)
          · have hqp : (q.1, q.2) ≠ p := fun e => hp (e ▸ hq)
            exact .inr ⟨q, hq, by rw [hv, decide_eq_false hqp, Bool.xor_false]; exact hon⟩

/-- Which pixels a sprite visits. -/
theorem mem_spritePixels {x0 y0 r : Nat} {bs : List Byte} {px : Column} {py : PixelRow} :
    (px, py) ∈ spritePixels x0 y0 r bs ↔
      ∃ i c b, bs[i]? = some b ∧ c < 8 ∧ spriteBit b c = true ∧ px = columnOf (x0 + c) ∧ py = rowOf (y0 + (r + i)) := by
  induction bs generalizing r with
  | nil => simp [spritePixels]
  | cons b bs ih =>
    rw [spritePixels, List.mem_append, ih]
    have hc : ∀ c, c ∈ ([0, 1, 2, 3, 4, 5, 6, 7] : List Nat) ↔ c < 8 := by
      intro c
      simp only [List.mem_cons, List.not_mem_nil, or_false]
      omega
    constructor
    · rintro (h | ⟨i, c, b', h1, h2, h3, h4, h5⟩)
      · rw [rowPixels, List.mem_map] at h
        obtain ⟨c, hm, he⟩ := h
        obtain ⟨hc8, hb⟩ := List.mem_filter.1 hm
        cases he
        exact ⟨0, c, b, rfl, (hc c).1 hc8, hb, rfl, rfl⟩
      · exact ⟨i + 1, c, b', h1, h2, h3, h4, by rw [h5]; congr 1; omega⟩
    · rintro ⟨i, c, b', h1, h2, h3, h4, h5⟩
      cases i with
      | zero =>
        cases h1
        refine .inl (List.mem_map.2 ⟨c, List.mem_filter.2 ⟨(hc c).2 h2, h3⟩, ?_⟩)
        rw [h4, h5]
        rfl
      | succ i => exact .inr ⟨i, c, b', h1, h2, h3, h4, by rw [h5]; congr 1; omega⟩

/-- No pixel is visited twice (43_display.md R152 (c)): a sprite is 8 wide and lower than the screen. -/
theorem nodup_spritePixels (x0 y0 r : Nat) (bs : List Byte) (h : bs.length ≤ 32) : (spritePixels x0 y0 r bs).Nodup := by
  induction bs generalizing r with
  | nil => exact List.nodup_nil
  | cons b bs ih =>
    rw [List.length_cons] at h
    rw [spritePixels, List.nodup_append]
    refine ⟨?_, ih (r + 1) (by omega), ?_⟩
    · refine List.Nodup.map_on ?_ (List.Nodup.filter _ (by decide))
      intro c hc d hd he
      have hc8 : c < 8 := by have := (List.mem_filter.1 hc).1; simp at this; omega
      have hd8 : d < 8 := by have := (List.mem_filter.1 hd).1; simp at this; omega
      have := congrArg (fun q : Column × PixelRow => q.1.val) he
      simp only [columnOf, Fin.ofNat] at this
      omega
    · rintro ⟨px, py⟩ hp ⟨qx, qy⟩ hq he
      cases he
      rw [rowPixels, List.mem_map] at hp
      obtain ⟨c, -, hp⟩ := hp
      obtain ⟨i, -, b', hi, -, -, -, hy⟩ := mem_spritePixels.1 hq
      have hil : i < bs.length := (List.getElem?_eq_some_iff.1 hi).1
      have hpy : py = rowOf (y0 + r) := (congrArg Prod.snd hp).symm
      have := congrArg Fin.val (hpy.symm.trans hy)
      simp only [rowOf, Fin.ofNat] at this
      omega

/-- A sprite has its nibble's number of rows. -/
theorem length_spriteBytes (p : OobPolicy) (s : State) (n : Nibble) : (s.spriteBytes p n).length = n.val := by
  simp [State.spriteBytes]

/-- Sprite row r is the byte at `I + r`. -/
theorem getElem?_spriteBytes (s : State) (n : Nibble) (r : Nat) (b : Byte) :
    (s.spriteBytes .fault n)[r]? = some b ↔ r < n.val ∧ b = s.readByte (s.dataAddr r) := by
  rw [State.spriteBytes, List.getElem?_map]
  by_cases h : r < n.val
  · simp [h, eq_comm]
  · simp [h]

end Sys2Proof.Machine
end

