-- ==== Sys2Proof/Laws/HostEvents.lean ====
section
/-! SUPPORT. What the host events do, one lemma each. -/

namespace Sys2Proof.Machine

/-- One timer tick as a number: down by 1, stopping at 0. -/
theorem tickDown_toNat (v : Byte) : (tickDown v).toNat = v.toNat - 1 := by
  unfold tickDown
  split
  · rename_i h
    simp [h]
  · rename_i h
    have : v.toNat ≠ 0 := fun e => h (BitVec.eq_of_toNat_eq (by simpa using e))
    have := v.isLt
    rw [BitVec.toNat_sub]
    simp
    omega

/-- A key press changes the keys, the register file and the wait, and ends the wait. -/
theorem State.keyPressed_rest (s : State) (c : Fin 16) :
    s.keyPressed c = { s with V := (s.keyPressed c).V, waiting := false, keys := s.keys.set c.val true } := by
  cases h : s.waiting
  · simp only [keyPressed, h, Bool.false_eq_true, if_false]
  · simp only [keyPressed, h, if_true]
    rfl

/-- A trace of two parts is the second from where the first ends. -/
theorem trace_append (es fs : List Stimulus) {s t : State} (h : trace es s = .next t) :
    trace (es ++ fs) s = trace fs t := by
  induction es generalizing s with
  | nil =>
    cases h
    rfl
  | cons e es ih =>
    rw [List.cons_append, trace]
    rw [trace] at h
    cases he : transition e s with
    | next u =>
      rw [he] at h
      exact ih h
    | fault r => simp [he] at h
    | refused r => simp [he] at h

end Sys2Proof.Machine
end

