-- ==== Sys2Proof/Laws/PerInstr.lean ====
section
/-! SUPPORT. Statements made for every instruction, one lemma per constructor. -/

namespace Sys2Proof.Laws.MatchesOwnRow

/-- Some row of the dispatch table matches the word of `i` and makes `i` of the word's fields
(30_encoding.md R74, R77). -/
def Statement (i : Instr) : Prop := ∃ r ∈ table, r.matches (encode i) = true ∧ r.form.build (encode i) = i

/-- Row 1, `CLS`. -/
theorem cls : Statement .cls := ⟨⟨"CLS", 0x00E0, 0xFFFF, .none .cls⟩, by simp [table, tableControl, tableArith, tableIndexDisplayKeys, tableF], by decide, rfl⟩

/-- Row 2, `RET`. -/
theorem ret : Statement .ret := ⟨⟨"RET", 0x00EE, 0xFFFF, .none .ret⟩, by simp [table, tableControl, tableArith, tableIndexDisplayKeys, tableF], by decide, rfl⟩

/-- Row 3, `SYS addr`. -/
theorem sys (nnn : Addr) : Statement (.sys nnn) :=
  ⟨⟨"SYS_addr", 0x0000, 0xF000, .nnn .sys⟩,
  by simp [table, tableControl, tableArith, tableIndexDisplayKeys, tableF],
  Row.matches_place _ (zext16_addr_and nnn),
  congrArg Instr.sys (fieldNNN_place (by decide) nnn)⟩

/-- Row 4, `JP addr`. -/
theorem jp (nnn : Addr) : Statement (.jp nnn) :=
  ⟨⟨"JP_addr", 0x1000, 0xF000, .nnn .jp⟩,
  by simp [table, tableControl, tableArith, tableIndexDisplayKeys, tableF],
  Row.matches_place _ (zext16_addr_and nnn),
  congrArg Instr.jp (fieldNNN_place (by decide) nnn)⟩

/-- Row 5, `CALL addr`. -/
theorem call (nnn : Addr) : Statement (.call nnn) :=
  ⟨⟨"CALL_addr", 0x2000, 0xF000, .nnn .call⟩,
  by simp [table, tableControl, tableArith, tableIndexDisplayKeys, tableF],
  Row.matches_place _ (zext16_addr_and nnn),
  congrArg Instr.call (fieldNNN_place (by decide) nnn)⟩

/-- Row 6, `SE Vx, byte`. -/
theorem seByte (x : Reg) (kk : Byte) : Statement (.seByte x kk) :=
  ⟨⟨"SE_Vx__byte", 0x3000, 0xF000, .xkk .seByte⟩,
  by simp [table, tableControl, tableArith, tableIndexDisplayKeys, tableF],
  by
    rw [encode, BitVec.or_assoc]
    exact Row.matches_place _ (or_and_eq_zero (placeX_and (by decide) x) (zext16_byte_and kk)),
  congrArg₂ Instr.seByte (fields_place_xkk (by decide) x kk).1 (fields_place_xkk (by decide) x kk).2⟩

/-- Row 7, `SNE Vx, byte`. -/
theorem sneByte (x : Reg) (kk : Byte) : Statement (.sneByte x kk) :=
  ⟨⟨"SNE_Vx__byte", 0x4000, 0xF000, .xkk .sneByte⟩,
  by simp [table, tableControl, tableArith, tableIndexDisplayKeys, tableF],
  by
    rw [encode, BitVec.or_assoc]
    exact Row.matches_place _ (or_and_eq_zero (placeX_and (by decide) x) (zext16_byte_and kk)),
  congrArg₂ Instr.sneByte (fields_place_xkk (by decide) x kk).1 (fields_place_xkk (by decide) x kk).2⟩

/-- Row 8, `SE Vx, Vy`. -/
theorem seReg (x y : Reg) : Statement (.seReg x y) :=
  ⟨⟨"SE_Vx__Vy", 0x5000, 0xF00F, .xy .seReg⟩,
  by simp [table, tableControl, tableArith, tableIndexDisplayKeys, tableF],
  by
    rw [encode, BitVec.or_assoc]
    exact Row.matches_place _ (or_and_eq_zero (placeX_and (by decide) x) (placeY_and (by decide) y)),
  congrArg₂ Instr.seReg (fields_place_xy (by decide) x y).1 (fields_place_xy (by decide) x y).2⟩

/-- Row 9, `LD Vx, byte`. -/
theorem ldByte (x : Reg) (kk : Byte) : Statement (.ldByte x kk) :=
  ⟨⟨"LD_Vx__byte", 0x6000, 0xF000, .xkk .ldByte⟩,
  by simp [table, tableControl, tableArith, tableIndexDisplayKeys, tableF],
  by
    rw [encode, BitVec.or_assoc]
    exact Row.matches_place _ (or_and_eq_zero (placeX_and (by decide) x) (zext16_byte_and kk)),
  congrArg₂ Instr.ldByte (fields_place_xkk (by decide) x kk).1 (fields_place_xkk (by decide) x kk).2⟩

/-- Row 10, `ADD Vx, byte`. -/
theorem addByte (x : Reg) (kk : Byte) : Statement (.addByte x kk) :=
  ⟨⟨"ADD_Vx__byte", 0x7000, 0xF000, .xkk .addByte⟩,
  by simp [table, tableControl, tableArith, tableIndexDisplayKeys, tableF],
  by
    rw [encode, BitVec.or_assoc]
    exact Row.matches_place _ (or_and_eq_zero (placeX_and (by decide) x) (zext16_byte_and kk)),
  congrArg₂ Instr.addByte (fields_place_xkk (by decide) x kk).1 (fields_place_xkk (by decide) x kk).2⟩

/-- Row 11, `LD Vx, Vy`. -/
theorem ldReg (x y : Reg) : Statement (.ldReg x y) :=
  ⟨⟨"LD_Vx__Vy", 0x8000, 0xF00F, .xy .ldReg⟩,
  by simp [table, tableControl, tableArith, tableIndexDisplayKeys, tableF],
  by
    rw [encode, BitVec.or_assoc]
    exact Row.matches_place _ (or_and_eq_zero (placeX_and (by decide) x) (placeY_and (by decide) y)),
  congrArg₂ Instr.ldReg (fields_place_xy (by decide) x y).1 (fields_place_xy (by decide) x y).2⟩

/-- Row 12, `OR Vx, Vy`. -/
theorem orReg (x y : Reg) : Statement (.orReg x y) :=
  ⟨⟨"OR_Vx__Vy", 0x8001, 0xF00F, .xy .orReg⟩,
  by simp [table, tableControl, tableArith, tableIndexDisplayKeys, tableF],
  by
    rw [encode, BitVec.or_assoc]
    exact Row.matches_place _ (or_and_eq_zero (placeX_and (by decide) x) (placeY_and (by decide) y)),
  congrArg₂ Instr.orReg (fields_place_xy (by decide) x y).1 (fields_place_xy (by decide) x y).2⟩

/-- Row 13, `AND Vx, Vy`. -/
theorem andReg (x y : Reg) : Statement (.andReg x y) :=
  ⟨⟨"AND_Vx__Vy", 0x8002, 0xF00F, .xy .andReg⟩,
  by simp [table, tableControl, tableArith, tableIndexDisplayKeys, tableF],
  by
    rw [encode, BitVec.or_assoc]
    exact Row.matches_place _ (or_and_eq_zero (placeX_and (by decide) x) (placeY_and (by decide) y)),
  congrArg₂ Instr.andReg (fields_place_xy (by decide) x y).1 (fields_place_xy (by decide) x y).2⟩

/-- Row 14, `XOR Vx, Vy`. -/
theorem xorReg (x y : Reg) : Statement (.xorReg x y) :=
  ⟨⟨"XOR_Vx__Vy", 0x8003, 0xF00F, .xy .xorReg⟩,
  by simp [table, tableControl, tableArith, tableIndexDisplayKeys, tableF],
  by
    rw [encode, BitVec.or_assoc]
    exact Row.matches_place _ (or_and_eq_zero (placeX_and (by decide) x) (placeY_and (by decide) y)),
  congrArg₂ Instr.xorReg (fields_place_xy (by decide) x y).1 (fields_place_xy (by decide) x y).2⟩

/-- Row 15, `ADD Vx, Vy`. -/
theorem addReg (x y : Reg) : Statement (.addReg x y) :=
  ⟨⟨"ADD_Vx__Vy", 0x8004, 0xF00F, .xy .addReg⟩,
  by simp [table, tableControl, tableArith, tableIndexDisplayKeys, tableF],
  by
    rw [encode, BitVec.or_assoc]
    exact Row.matches_place _ (or_and_eq_zero (placeX_and (by decide) x) (placeY_and (by decide) y)),
  congrArg₂ Instr.addReg (fields_place_xy (by decide) x y).1 (fields_place_xy (by decide) x y).2⟩

/-- Row 16, `SUB Vx, Vy`. -/
theorem sub (x y : Reg) : Statement (.sub x y) :=
  ⟨⟨"SUB_Vx__Vy", 0x8005, 0xF00F, .xy .sub⟩,
  by simp [table, tableControl, tableArith, tableIndexDisplayKeys, tableF],
  by
    rw [encode, BitVec.or_assoc]
    exact Row.matches_place _ (or_and_eq_zero (placeX_and (by decide) x) (placeY_and (by decide) y)),
  congrArg₂ Instr.sub (fields_place_xy (by decide) x y).1 (fields_place_xy (by decide) x y).2⟩

/-- Row 17, `SHR Vx`. -/
theorem shr (x : Reg) : Statement (.shr x) :=
  ⟨⟨"SHR_Vx", 0x8006, 0xF00F, .xy fun x _ => .shr x⟩,
  by simp [table, tableControl, tableArith, tableIndexDisplayKeys, tableF],
  Row.matches_place _ (placeX_and (by decide) x),
  congrArg Instr.shr (fieldX_place (by decide) x)⟩

/-- Row 18, `SUBN Vx, Vy`. -/
theorem subn (x y : Reg) : Statement (.subn x y) :=
  ⟨⟨"SUBN_Vx__Vy", 0x8007, 0xF00F, .xy .subn⟩,
  by simp [table, tableControl, tableArith, tableIndexDisplayKeys, tableF],
  by
    rw [encode, BitVec.or_assoc]
    exact Row.matches_place _ (or_and_eq_zero (placeX_and (by decide) x) (placeY_and (by decide) y)),
  congrArg₂ Instr.subn (fields_place_xy (by decide) x y).1 (fields_place_xy (by decide) x y).2⟩

/-- Row 19, `SHL Vx`. -/
theorem shl (x : Reg) : Statement (.shl x) :=
  ⟨⟨"SHL_Vx", 0x800E, 0xF00F, .xy fun x _ => .shl x⟩,
  by simp [table, tableControl, tableArith, tableIndexDisplayKeys, tableF],
  Row.matches_place _ (placeX_and (by decide) x),
  congrArg Instr.shl (fieldX_place (by decide) x)⟩

/-- Row 20, `SNE Vx, Vy`. -/
theorem sneReg (x y : Reg) : Statement (.sneReg x y) :=
  ⟨⟨"SNE_Vx__Vy", 0x9000, 0xF00F, .xy .sneReg⟩,
  by simp [table, tableControl, tableArith, tableIndexDisplayKeys, tableF],
  by
    rw [encode, BitVec.or_assoc]
    exact Row.matches_place _ (or_and_eq_zero (placeX_and (by decide) x) (placeY_and (by decide) y)),
  congrArg₂ Instr.sneReg (fields_place_xy (by decide) x y).1 (fields_place_xy (by decide) x y).2⟩

/-- Row 21, `LD I, addr`. -/
theorem ldI (nnn : Addr) : Statement (.ldI nnn) :=
  ⟨⟨"LD_I__addr", 0xA000, 0xF000, .nnn .ldI⟩,
  by simp [table, tableControl, tableArith, tableIndexDisplayKeys, tableF],
  Row.matches_place _ (zext16_addr_and nnn),
  congrArg Instr.ldI (fieldNNN_place (by decide) nnn)⟩

/-- Row 22, `JP V0, addr`. -/
theorem jpV0 (nnn : Addr) : Statement (.jpV0 nnn) :=
  ⟨⟨"JP_V0__addr", 0xB000, 0xF000, .nnn .jpV0⟩,
  by simp [table, tableControl, tableArith, tableIndexDisplayKeys, tableF],
  Row.matches_place _ (zext16_addr_and nnn),
  congrArg Instr.jpV0 (fieldNNN_place (by decide) nnn)⟩

/-- Row 23, `RND Vx, byte`. -/
theorem rnd (x : Reg) (kk : Byte) : Statement (.rnd x kk) :=
  ⟨⟨"RND_Vx__byte", 0xC000, 0xF000, .xkk .rnd⟩,
  by simp [table, tableControl, tableArith, tableIndexDisplayKeys, tableF],
  by
    rw [encode, BitVec.or_assoc]
    exact Row.matches_place _ (or_and_eq_zero (placeX_and (by decide) x) (zext16_byte_and kk)),
  congrArg₂ Instr.rnd (fields_place_xkk (by decide) x kk).1 (fields_place_xkk (by decide) x kk).2⟩

/-- Row 24, `DRW Vx, Vy, nibble`. -/
theorem drw (x y : Reg) (n : Nibble) : Statement (.drw x y n) :=
  ⟨⟨"DRW_Vx__Vy__nibble", 0xD000, 0xF000, .xyn .drw⟩,
  by simp [table, tableControl, tableArith, tableIndexDisplayKeys, tableF],
  by
    rw [encode, BitVec.or_assoc, BitVec.or_assoc]
    exact Row.matches_place _
      (or_and_eq_zero (placeX_and (by decide) x) (or_and_eq_zero (placeY_and (by decide) y) (placeN_and n))),
  by
    have h := fields_place_xyn (p := 0xD000) (by decide) x y n
    simp only [Form.build, encode, h]⟩

/-- Row 25, `SKP Vx`. -/
theorem skp (x : Reg) : Statement (.skp x) :=
  ⟨⟨"SKP_Vx", 0xE09E, 0xF0FF, .x .skp⟩,
  by simp [table, tableControl, tableArith, tableIndexDisplayKeys, tableF],
  Row.matches_place _ (placeX_and (by decide) x),
  congrArg Instr.skp (fieldX_place (by decide) x)⟩

/-- Row 26, `SKNP Vx`. -/
theorem sknp (x : Reg) : Statement (.sknp x) :=
  ⟨⟨"SKNP_Vx", 0xE0A1, 0xF0FF, .x .sknp⟩,
  by simp [table, tableControl, tableArith, tableIndexDisplayKeys, tableF],
  Row.matches_place _ (placeX_and (by decide) x),
  congrArg Instr.sknp (fieldX_place (by decide) x)⟩

/-- Row 27, `LD Vx, DT`. -/
theorem ldVxDT (x : Reg) : Statement (.ldVxDT x) :=
  ⟨⟨"LD_Vx__DT", 0xF007, 0xF0FF, .x .ldVxDT⟩,
  by simp [table, tableControl, tableArith, tableIndexDisplayKeys, tableF],
  Row.matches_place _ (placeX_and (by decide) x),
  congrArg Instr.ldVxDT (fieldX_place (by decide) x)⟩

/-- Row 28, `LD Vx, K`. -/
theorem ldVxK (x : Reg) : Statement (.ldVxK x) :=
  ⟨⟨"LD_Vx__K", 0xF00A, 0xF0FF, .x .ldVxK⟩,
  by simp [table, tableControl, tableArith, tableIndexDisplayKeys, tableF],
  Row.matches_place _ (placeX_and (by decide) x),
  congrArg Instr.ldVxK (fieldX_place (by decide) x)⟩

/-- Row 29, `LD DT, Vx`. -/
theorem ldDT (x : Reg) : Statement (.ldDT x) :=
  ⟨⟨"LD_DT__Vx", 0xF015, 0xF0FF, .x .ldDT⟩,
  by simp [table, tableControl, tableArith, tableIndexDisplayKeys, tableF],
  Row.matches_place _ (placeX_and (by decide) x),
  congrArg Instr.ldDT (fieldX_place (by decide) x)⟩

/-- Row 30, `LD ST, Vx`. -/
theorem ldST (x : Reg) : Statement (.ldST x) :=
  ⟨⟨"LD_ST__Vx", 0xF018, 0xF0FF, .x .ldST⟩,
  by simp [table, tableControl, tableArith, tableIndexDisplayKeys, tableF],
  Row.matches_place _ (placeX_and (by decide) x),
  congrArg Instr.ldST (fieldX_place (by decide) x)⟩

/-- Row 31, `ADD I, Vx`. -/
theorem addI (x : Reg) : Statement (.addI x) :=
  ⟨⟨"ADD_I__Vx", 0xF01E, 0xF0FF, .x .addI⟩,
  by simp [table, tableControl, tableArith, tableIndexDisplayKeys, tableF],
  Row.matches_place _ (placeX_and (by decide) x),
  congrArg Instr.addI (fieldX_place (by decide) x)⟩

/-- Row 32, `LD F, Vx`. -/
theorem ldF (x : Reg) : Statement (.ldF x) :=
  ⟨⟨"LD_F__Vx", 0xF029, 0xF0FF, .x .ldF⟩,
  by simp [table, tableControl, tableArith, tableIndexDisplayKeys, tableF],
  Row.matches_place _ (placeX_and (by decide) x),
  congrArg Instr.ldF (fieldX_place (by decide) x)⟩

/-- Row 33, `LD B, Vx`. -/
theorem ldB (x : Reg) : Statement (.ldB x) :=
  ⟨⟨"LD_B__Vx", 0xF033, 0xF0FF, .x .ldB⟩,
  by simp [table, tableControl, tableArith, tableIndexDisplayKeys, tableF],
  Row.matches_place _ (placeX_and (by decide) x),
  congrArg Instr.ldB (fieldX_place (by decide) x)⟩

/-- Row 34, `LD [I], Vx`. -/
theorem storeRegs (x : Reg) : Statement (.storeRegs x) :=
  ⟨⟨"LD__I___Vx", 0xF055, 0xF0FF, .x .storeRegs⟩,
  by simp [table, tableControl, tableArith, tableIndexDisplayKeys, tableF],
  Row.matches_place _ (placeX_and (by decide) x),
  congrArg Instr.storeRegs (fieldX_place (by decide) x)⟩

/-- Row 35, `LD Vx, [I]`. -/
theorem loadRegs (x : Reg) : Statement (.loadRegs x) :=
  ⟨⟨"LD_Vx___I", 0xF065, 0xF0FF, .x .loadRegs⟩,
  by simp [table, tableControl, tableArith, tableIndexDisplayKeys, tableF],
  Row.matches_place _ (placeX_and (by decide) x),
  congrArg Instr.loadRegs (fieldX_place (by decide) x)⟩

end Sys2Proof.Laws.MatchesOwnRow
end

