-- ==== Sys2Proof/Laws/Step.lean ====
section
/-! SUPPORT. Everything one call of `step` can do (30_encoding.md R76), once. -/

namespace Sys2Proof.Machine

/-- The run condition as a bound (10_state.md R25). -/
theorem State.pcInMemory_iff (s : State) : s.pcInMemory = true ↔ s.pc.toNat ≤ 0xFFE := by
  simp [pcInMemory]

/-- A running machine steps by the opcode it fetches. -/
theorem step_running {s : State} (h : Running s) : step s = finishOutcome s.fb (runOpcode exec s.fetch s) := by
  have hp := (s.pcInMemory_iff).2 h.inMemory
  simp [step, cycle, h.notFaulted, h.notHeld, hp]

/-- What a step answers comes about in one of these ways: faulted, halted, held, an instruction, an illegal opcode. -/
theorem step_cases {s t : State} (h : step s = .next t) :
    (s.fault = true ∧ t = s.idle false) ∨
    (s.fault = false ∧ 0xFFE < s.pc.toNat ∧ t = s.idle false) ∨
    (s.fault = false ∧ s.pc.toNat ≤ 0xFFE ∧ s.waiting = true ∧ t = s.idle true) ∨
    (Running s ∧ ∃ i u, decodeWord s.fetch = .ok i ∧ exec i s = .next u ∧ t = u.finish s.fb) ∨
    (Running s ∧ ∃ e, decodeWord s.fetch = .error e ∧ t = s.advance.finish s.fb) := by
  cases hf : s.fault
  · rcases Nat.lt_or_ge 0xFFE s.pc.toNat with hp | hp
    · have : s.pcInMemory = false := by simp [State.pcInMemory, hp]
      rw [step, cycle] at h
      simp only [hf, this, Bool.false_eq_true, if_false, Bool.not_false, if_true, Host.Outcome.next.injEq] at h
      exact .inr (.inl ⟨rfl, hp, h.symm⟩)
    · cases hw : s.waiting
      · have hr : Running s := ⟨hf, hp, hw⟩
        rw [step_running hr, runOpcode] at h
        cases hd : decodeWord s.fetch with
        | ok i =>
          rw [hd] at h
          cases he : exec i s with
          | next u =>
            simp only [he, finishOutcome, Host.Outcome.next.injEq] at h
            exact .inr (.inr (.inr (.inl ⟨hr, i, u, rfl, he, h.symm⟩)))
          | fault r => simp [he, finishOutcome] at h
          | refused r => simp [he, finishOutcome] at h
        | error e =>
          simp only [hd, execIllegal, finishOutcome, Host.Outcome.next.injEq] at h
          exact .inr (.inr (.inr (.inr ⟨hr, e, rfl, h.symm⟩)))
      · have hm := (s.pcInMemory_iff).2 hp
        rw [step, cycle] at h
        simp only [hf, hm, hw, hardware, Bool.false_eq_true, if_false, Bool.not_true, Bool.and_self, if_true,
          Host.Outcome.next.injEq] at h
        exact .inr (.inr (.inl ⟨rfl, hp, rfl, h.symm⟩))
  · rw [step, cycle] at h
    simp only [hf, if_true, Host.Outcome.next.injEq] at h
    exact .inl ⟨rfl, h.symm⟩

/-- At this hardware's values of the parameters `execWith` is `exec`. -/
theorem execWith_hardware (i : Instr) (s : State) : execWith hardware i s = exec i s := by
  cases i <;> rfl

end Sys2Proof.Machine
end

