-- ==== Sys2Proof/Tests/Slice0.lean ====
section
/-! SUPPORT. Tests of the model, their expected results taken from 95_test_vectors.md (the name of the vector in each
docstring) or worked out by hand from the rule; and for every obligation with hypotheses a state that meets them. -/

namespace Sys2Proof.Tests

open Sys2Proof Sys2Proof.Machine

/-! ## Helpers -/

/-- The reset state with some registers set. -/
def withRegs (vs : List (Reg × Byte)) : State := vs.foldl (fun s v => s.setReg v.1 v.2) State.reset

/-- One step on the instruction word `op`, placed where the next fetch takes place. -/
def runOne (s : State) (op : Nat) : Option State :=
  match step (s.withFetchWord 16 op) with
  | .next t => some t
  | _ => none

/-- What a host event or a construction answers, as an option. -/
def answer : Result → Option State
  | .next t => some t
  | _ => none

/-- The instruction of an opcode. -/
def ofWord (op : Word) : Option Instr :=
  match decodeWord op with
  | .ok i => some i
  | .error _ => none

/-- Two registers after a step: the destination and `VF`. -/
def regAndVF (x : Reg) (t : Option State) : Option (Byte × Byte) := t.map fun t => (t.reg x, t.reg Reg.VF)

/-! ## WellFormed -/

/-- The word 00E0 is CLS, so SYS of 0x0E0 is no instruction of the table (30_encoding.md R75). -/
theorem test_wellFormed_refuses_sys_0E0 : (Instr.sys 0x0E0).wellFormed = false := by decide

/-- The word 00EE is RET, so SYS of 0x0EE is no instruction of the table (30_encoding.md R75). -/
theorem test_wellFormed_refuses_sys_0EE : (Instr.sys 0x0EE).wellFormed = false := by decide

/-- Its neighbours are. -/
theorem test_wellFormed_takes_neighbours : (Instr.sys 0x0E1).wellFormed = true ∧ (Instr.sys 0x0ED).wellFormed = true := by
  decide

/-! ## Decoding: a word for every row, written out from 30_encoding.md R71 and R77 -/

/-- V-DECODE, and rows 1 to 5. -/
theorem test_decode_control : [0x00E0, 0x00EE, 0x00E1, 0x0000, 0x1FFF, 0x2ABC].map ofWord =
    [some .cls, some .ret, some (.sys 0x0E1), some (.sys 0), some (.jp 0xFFF), some (.call 0xABC)] := by decide

/-- V-DECODE, and rows 6 to 8 and 20. -/
theorem test_decode_skips : [0x3A7F, 0x41C3, 0x5AB0, 0x9340].map ofWord =
    [some (.seByte 10 0x7F), some (.sneByte 1 0xC3), some (.seReg 10 11), some (.sneReg 3 4)] := by decide

/-- Rows 9 to 15; the last is S2. -/
theorem test_decode_loads : [0x60EA, 0x7F01, 0x8120, 0x8121, 0x8122, 0x8123, 0x8454].map ofWord =
    [some (.ldByte 0 0xEA), some (.addByte 15 1), some (.ldReg 1 2), some (.orReg 1 2), some (.andReg 1 2),
     some (.xorReg 1 2), some (.addReg 4 5)] := by decide

/-- Rows 16 to 19; SHR and SHL with any `y`. -/
theorem test_decode_flags : [0x8015, 0x8306, 0x8346, 0x8F17, 0x800E, 0x8ABE].map ofWord =
    [some (.sub 0 1), some (.shr 3), some (.shr 3), some (.subn 15 1), some (.shl 0), some (.shl 10)] := by decide

/-- V-DECODE, S3, and rows 21 to 26. -/
theorem test_decode_display : [0xA300, 0xB123, 0xC10F, 0xD123, 0xE19E, 0xE7A1].map ofWord =
    [some (.ldI 0x300), some (.jpV0 0x123), some (.rnd 1 0x0F), some (.drw 1 2 3), some (.skp 1), some (.sknp 7)] := by
  decide

/-- V-DECODE, S1, and rows 27 to 35. -/
theorem test_decode_f : [0xF107, 0xF10A, 0xF015, 0xF218, 0xF41E, 0xF229, 0xF033, 0xF155, 0xFF65].map ofWord =
    [some (.ldVxDT 1), some (.ldVxK 1), some (.ldDT 0), some (.ldST 2), some (.addI 4), some (.ldF 2), some (.ldB 0),
     some (.storeRegs 1), some (.loadRegs 15)] := by decide

/-- V-DECODE and V-ILLEGAL: words that match no row. -/
theorem test_decode_illegal : [0x5AB1, 0x9341, 0x8AB8, 0x800F, 0xE19F, 0xE000, 0xF000, 0xF01F, 0xF175, 0xFFFF].map
    ofWord = List.replicate 10 none := by decide

/-- The table has the 35 rows of 30_encoding.md R77. -/
theorem test_table_length : table.length = 35 := by decide

/-- The opcode table's numbering: 16 bits are the word itself, and a truncated row has zeros above. -/
theorem test_decodeTableWord : decodeTableWord 16 0xD123 = some (.drw 1 2 3) ∧ decodeTableWord 8 0xD1E0 = some .cls := by
  decide

/-- Bytes too few for an instruction are refused by name. -/
theorem test_decode_truncated : decode [0xD1] = .error (.truncated 1) ∧ decode [] = .error (.truncated 0) := by decide

/-! ## Control flow (V-FLOW) -/

/-- Rows 1 and 2. -/
theorem test_sys : (runOne State.reset 0x0123).map (·.pc) = some 0x202 := by decide

/-- Row 3. -/
theorem test_ret : (runOne { State.reset with sp := 1, stack := State.reset.stack.set 0 0x206 } 0x00EE).map
    (fun t => (t.sp, t.pc, t.slot 0)) = some (0, 0x206, 0x206) := by decide

/-- Row 4: the pointer wraps. -/
theorem test_ret_wraps : (runOne State.reset 0x00EE).map (fun t => (t.sp, t.pc)) = some (15, 0) := by decide

/-- Row 5, and the next step is halted. -/
theorem test_jp : (runOne State.reset 0x1FFF).map (fun t => (t.pc, t.stepResult)) = some (0xFFF, true) := by decide

/-- Row 8: the saved address at the end of memory is 0x1000. -/
theorem test_call : (runOne { State.reset with pc := 0xFFE } 0x2300).map (fun t => (t.slot 0, t.sp, t.pc)) =
    some (0x1000, 1, 0x300) := by decide

/-- The 16th nested CALL fills slot 15 and wraps the pointer (40_control_flow.md R104). -/
theorem test_call_wraps : (runOne { State.reset with sp := 15 } 0x2300).map (fun t => (t.slot 15, t.sp)) =
    some (0x202, 0) := by decide

/-- Row 10: the sum passes the end of memory unreduced. -/
theorem test_jpV0 : (runOne (withRegs [(0, 0xFF)]) 0xBFFF).map (·.pc) = some 0x10FE := by decide

/-- Rows 11 and 12. -/
theorem test_seByte : (runOne { State.reset with pc := 0x208 } 0x3100).map (·.pc) = some 0x20C ∧
    (runOne { withRegs [(1, 1)] with pc := 0x208 } 0x3100).map (·.pc) = some 0x20A := by decide

/-- Row 20: a skip at the last fetch address. -/
theorem test_seByte_end : (runOne { State.reset with pc := 0xFFE } 0x3000).map (·.pc) = some 0x1002 := by decide

/-- Rows 13 and 14. -/
theorem test_sneByte : (runOne { withRegs [(2, 5)] with pc := 0x300 } 0x4205).map (·.pc) = some 0x302 ∧
    (runOne { withRegs [(2, 6)] with pc := 0x300 } 0x4205).map (·.pc) = some 0x304 := by decide

/-- Row 15, and unequal registers. -/
theorem test_seReg : (runOne (withRegs [(3, 7), (4, 7)]) 0x5340).map (·.pc) = some 0x204 ∧
    (runOne (withRegs [(3, 7), (4, 8)]) 0x5340).map (·.pc) = some 0x202 := by decide

/-- Rows 17 and 18. -/
theorem test_sneReg : (runOne (withRegs [(3, 7), (4, 8)]) 0x9340).map (·.pc) = some 0x204 ∧
    (runOne (withRegs [(3, 7)]) 0x9330).map (·.pc) = some 0x202 := by decide

/-! ## Loads, arithmetic, logic (V-LOAD, V-SUB, V-SHIFT, V-RND) -/

/-- Row 1. -/
theorem test_ldByte : (runOne State.reset 0x60EA).map (·.reg 0) = some 0xEA := by decide

/-- Row 6, with `x` and `y` apart. -/
theorem test_ldReg : (runOne (withRegs [(2, 0x55)]) 0x8120).map (fun t => (t.reg 1, t.reg 2)) = some (0x55, 0x55) := by
  decide

/-- Rows 3 and 4. -/
theorem test_addByte : regAndVF 0 (runOne (withRegs [(0, 0xF0), (15, 7)]) 0x7003) = some (0xF3, 7) ∧
    regAndVF 0 (runOne (withRegs [(0, 0xFF), (15, 7)]) 0x700A) = some (9, 7) := by decide

/-- Row 7. -/
theorem test_or : regAndVF 1 (runOne (withRegs [(1, 0xF0), (2, 0x0F), (15, 9)]) 0x8121) = some (0xFF, 9) := by decide

/-- Row 8. -/
theorem test_and : regAndVF 1 (runOne (withRegs [(1, 0xF3), (2, 0x3C)]) 0x8122) = some (0x30, 0) := by decide

/-- Rows 9 and 10. -/
theorem test_xor : regAndVF 1 (runOne (withRegs [(1, 0xFF), (2, 0x0F)]) 0x8123) = some (0xF0, 0) ∧
    regAndVF 1 (runOne (withRegs [(1, 0xAB)]) 0x8113) = some (0, 0) := by decide

/-- Rows 11 and 13: no carry flag. -/
theorem test_addReg : regAndVF 4 (runOne (withRegs [(4, 0xF0), (5, 0x20), (15, 7)]) 0x8454) = some (0x10, 7) ∧
    regAndVF 15 (runOne (withRegs [(15, 0xFF), (1, 2)]) 0x8F14) = some (1, 1) := by decide

/-- Rows 1 and 3. -/
theorem test_sub : regAndVF 0 (runOne (withRegs [(0, 0x10), (1, 0x20)]) 0x8015) = some (0xF0, 0) ∧
    regAndVF 0 (runOne (withRegs [(0, 0x33), (1, 0x33), (15, 7)]) 0x8015) = some (0, 0) := by decide

/-- Rows 5 and 7: the flag is written first. -/
theorem test_sub_VF : regAndVF 15 (runOne (withRegs [(15, 5), (1, 3)]) 0x8F15) = some (0xFE, 0xFE) ∧
    regAndVF 1 (runOne (withRegs [(1, 5), (15, 3)]) 0x81F5) = some (4, 1) := by decide

/-- Rows 10 and 12. -/
theorem test_subn : regAndVF 0 (runOne (withRegs [(0, 0x10), (1, 0x20)]) 0x8017) = some (0x10, 1) ∧
    regAndVF 0 (runOne (withRegs [(0, 0x20), (1, 0x20), (15, 1)]) 0x8017) = some (0, 0) := by decide

/-- Rows 14 and 16. -/
theorem test_subn_VF : regAndVF 15 (runOne (withRegs [(15, 3), (1, 5)]) 0x8F17) = some (4, 4) ∧
    regAndVF 1 (runOne (withRegs [(1, 3), (15, 5)]) 0x81F7) = some (0xFE, 1) := by decide

/-- Rows 1 and 2 (`y` ignored). -/
theorem test_shr : regAndVF 3 (runOne (withRegs [(3, 5)]) 0x8306) = some (2, 1) ∧
    regAndVF 3 (runOne (withRegs [(3, 0x80), (4, 0xFF)]) 0x8346) = some (0x40, 0) := by decide

/-- Row 4. -/
theorem test_shr_VF : regAndVF 15 (runOne (withRegs [(15, 3)]) 0x8F06) = some (0, 0) := by decide

/-- S6: the source's own example. -/
theorem test_shl : regAndVF 0 (runOne (withRegs [(0, 0xA5)]) 0x800E) = some (0x4A, 1) ∧
    regAndVF 0 (runOne (withRegs [(0, 0x4A), (15, 1)]) 0x800E) = some (0x94, 0) := by decide

/-- Row 7. -/
theorem test_shl_VF : regAndVF 15 (runOne (withRegs [(15, 0x81)]) 0x8F0E) = some (2, 2) := by decide

/-- V-RND rows 1 and 2, on a given draw. -/
theorem test_rnd_draw : (rndWith 0xA7 1 0x0F State.reset).reg 1 = 7 ∧ (rndWith 0x5A 2 0xF0 State.reset).reg 2 = 0x50 := by
  decide

/-- V-RND row 3: under the mask 0 every draw gives 0. -/
theorem test_rnd_mask_zero : (runOne (withRegs [(1, 9)]) 0xC100).map (·.reg 1) = some 0 := by
  show some ((State.setReg _ 1 (Config.drawByte 0 &&& 0)).reg 1) = some 0
  rw [State.reg_setReg_same]
  exact congrArg some BitVec.and_zero

/-! ## The address register and memory (V-INDEX, V-MEM) -/

/-- Row 1. -/
theorem test_ldI : (runOne State.reset 0xA300).map (·.I) = some 0x300 := by decide

/-- Rows 3 and 4. -/
theorem test_addI : (runOne { withRegs [(0, 1), (15, 7)] with I := 0xFFF } 0xF01E).map
      (fun t => (t.I, t.reg 15, t.fault)) = some (0x1000, 7, false) ∧
    (runOne { withRegs [(0, 2)] with I := 0xFFFF } 0xF01E).map (·.I) = some 1 := by decide

/-- Rows 6 and 8. -/
theorem test_ldF : (runOne (withRegs [(2, 0x0F)]) 0xF229).map (·.I) = some 0x4B ∧
    (runOne (withRegs [(2, 0xFF)]) 0xF229).map (·.I) = some 0x4FB := by decide

/-- V-MEM row 4: the last address at which the digits fit. -/
theorem test_ldB : (runOne { withRegs [(0, 0xFF)] with I := 0xFFD } 0xF033).map
    (fun t => [t.readByte 0xFFD, t.readByte 0xFFE, t.readByte 0xFFF]) = some [2, 5, 5] := by decide

/-- V-MEM row 5: one address higher the instruction faults and writes nothing. -/
theorem test_ldB_faults : (runOne { withRegs [(0, 0xFF)] with I := 0xFFE } 0xF033).map
    (fun t => (t.fault, t.pc, t.readByte 0xFFE, t.stepResult)) = some (true, 0x200, 0, false) := by decide

/-- V-MEM row 6. -/
theorem test_storeRegs : (runOne { withRegs [(0, 0x12), (1, 0x0A), (2, 0x99)] with I := 0x208 } 0xF155).map
    (fun t => ([t.readByte 0x208, t.readByte 0x209, t.readByte 0x20A], t.I)) = some ([0x12, 0x0A, 0], 0x208) := by decide

/-- V-MEM row 8: not even the bytes that would fit are written. -/
theorem test_storeRegs_faults : (runOne { withRegs [(0, 0xA0)] with I := 0xFF1 } 0xFF55).map
    (fun t => (t.fault, t.pc, t.readByte 0xFF1)) = some (true, 0x200, 0) := by decide

/-- V-MEM row 11. -/
theorem test_loadRegs : (runOne { withRegs [(3, 0x77)] with
      I := 0x300, mem := State.reset.mem.writeBytes 0x300 [2, 3, 4, 5] } 0xF265).map
    (fun t => ([t.reg 0, t.reg 1, t.reg 2, t.reg 3], t.I)) = some ([2, 3, 4, 0x77], 0x300) := by decide

/-- V-MEM rows 12 and 13. -/
theorem test_loadRegs_font : (runOne State.reset 0xF465).map (fun t => [t.reg 0, t.reg 1, t.reg 2, t.reg 3, t.reg 4]) =
      some [0xF0, 0x90, 0x90, 0x90, 0xF0] ∧
    (runOne { withRegs [(0, 9)] with I := 0xFFE } 0xF265).map (fun t => (t.fault, t.reg 0, t.pc)) =
      some (true, 9, 0x200) := by decide

/-! ## Display (V-DRAW) -/

/-- The reset state with a sprite at 0x300 and `I` there. -/
def withSprite (bytes vs : List (Nat × Byte)) : State :=
  { withRegs (vs.map fun v => (Fin.ofNat 16 v.1, v.2)) with
    I := 0x300, mem := bytes.foldl (fun m b => m.write (0x300 + b.1) b.2) [] }

/-- Row 1: both axes wrap. -/
theorem test_drw_wraps : (runOne (withSprite [(0, 0xC0)] [(1, 63), (2, 31)]) 0xD121).map
    (fun t => (t.changes, t.reg 15)) = some ([⟨0, 31, true⟩, ⟨63, 31, true⟩], 0) := by decide +kernel

/-- Row 4: a collision; a pixel beside the sprite stays. -/
theorem test_drw_collides : (runOne { withSprite [(0, 0xF0)] [(15, 9)] with
      fb := (Framebuffer.clear.flip 1 0).flip 5 0 } 0xD011).map
    (fun t => (t.changes, t.reg 15, t.fb.pixel 5 0)) =
      some ([⟨0, 0, true⟩, ⟨1, 0, false⟩, ⟨2, 0, true⟩, ⟨3, 0, true⟩], 1, true) := by decide +kernel

/-- Row 11. -/
theorem test_cls : (runOne { withRegs [(15, 5)] with fb := (Framebuffer.clear.flip 3 4).flip 63 31 } 0x00E0).map
    (fun t => (t.changes, t.reg 15, t.fb.pixel 3 4)) = some ([⟨3, 4, false⟩, ⟨63, 31, false⟩], 5, false) := by
  decide +kernel

/-! ## Keyboard and timers (V-KEY, V-TIMER, S7) -/

/-- The reset state with one key held. -/
def withKey (vs : List (Reg × Byte)) (c : Nat) : State := (answer (keyDown c (withRegs vs))).getD State.reset

/-- S7, and V-KEY row 1: 0x17 is no key code. -/
theorem test_skp : (runOne (withKey [(0, 7)] 7) 0xE09E).map (·.pc) = some 0x204 ∧
    (runOne (withKey [(0, 0x17)] 7) 0xE09E).map (·.pc) = some 0x202 := by decide

/-- V-KEY rows 2 and 3. -/
theorem test_sknp : (runOne (withKey [(0, 0x17)] 7) 0xE0A1).map (·.pc) = some 0x204 ∧
    (runOne (withKey [(0, 7)] 7) 0xE0A1).map (·.pc) = some 0x202 := by decide

/-- V-KEY row 5: a key held already does not end the wait. -/
theorem test_ldVxK : (runOne (withKey [] 10) 0xF30A).map (fun t => (t.waiting, t.waitTarget, t.pc, t.reg 3)) =
    some (true, 3, 0x202, 0) := by decide

/-- V-KEY row 8. -/
theorem test_keyDown_ends_wait : (answer (keyDown 10 { State.reset with waiting := true, waitTarget := 3 })).map
    (fun t => (t.reg 3, t.waiting, t.pressed 10, t.pc)) = some (0x0A, false, true, 0x200) := by decide

/-- S7: the key is up again. -/
theorem test_keyUp : (answer (keyUp 7 (withKey [] 7))).map (·.pressed 7) = some false := by decide

/-- V-KEY row 10: a code above 15 has no transition. -/
theorem test_keyDown_out_of_range : keyDown 16 State.reset = .refused (.keyCodeOutOfRange 16) := rfl

/-- V-TIMER row 3. -/
theorem test_ldVxDT : (runOne { State.reset with DT := 5 } 0xF107).map (fun t => (t.reg 1, t.DT)) = some (5, 5) := by decide

/-- V-TIMER row 1. -/
theorem test_ldDT : (runOne (withRegs [(0, 7)]) 0xF015).map (fun t => (t.DT, t.ST)) = some (7, 0) := by decide

/-- V-TIMER row 2. -/
theorem test_ldST : (runOne (withRegs [(2, 0x1E)]) 0xF218).map (fun t => (t.DT, t.ST)) = some (0, 0x1E) := by decide

/-- V-TIMER rows 4 and 6. -/
theorem test_timerTick : (answer (timerTick { State.reset with DT := 2, ST := 1 })).map (fun t => (t.DT, t.ST)) =
      some (1, 0) ∧
    (answer (timerTick State.reset)).map (fun t => (t.DT, t.ST)) = some (0, 0) := by decide

/-! ## The step cycle and reset (V-HALT, V-ILLEGAL, V-RESET) -/

/-- V-HALT rows 3 and 4. -/
theorem test_halted : (answer (step { State.reset with pc := 0xFFF })).map (fun t => (t.pc, t.stepResult)) =
      some (0xFFF, false) ∧
    (answer (step { State.reset with pc := 0x10FE })).map (fun t => (t.pc, t.stepResult)) = some (0x10FE, false) := by
  decide

/-- V-KEY row 13: halted is tested before held. -/
theorem test_halted_before_held : (answer (step { State.reset with pc := 0x1000, waiting := true })).map (·.stepResult) =
    some false := by decide

/-- V-KEY row 6: held. -/
theorem test_held : (answer (step { State.reset with waiting := true })).map (fun t => (t.pc, t.stepResult)) =
    some (0x200, true) := by decide

/-- V-ILLEGAL: 5341 with equal registers does not skip. -/
theorem test_illegal : (runOne (withRegs [(3, 7), (4, 7)]) 0x5341).map (fun t => (t.pc, t.stepResult)) =
    some (0x202, true) := by decide

/-- V-FLOW, odd `pc`. -/
theorem test_odd_pc : (answer (step { State.reset with
      pc := 0x201, mem := State.reset.mem.writeBytes 0x201 [0x60, 0x77] })).map (fun t => (t.reg 0, t.pc)) =
    some (0x77, 0x203) := by decide

/-- V-RESET: the font, its end, and an image of two bytes. -/
theorem test_construct : (answer (construct [0x12, 0x00])).map
    (fun t => ([0x000, 0x001, 0x04B, 0x04F, 0x050, 0x1FF, 0x200, 0x201, 0x202].map t.readByte, t.pc)) =
    some ([0xF0, 0x90, 0xF0, 0x80, 0, 0, 0x12, 0, 0], 0x200) := by decide

/-- V-RESET: an image one byte too long. -/
theorem test_construct_refuses : construct (List.replicate 3585 0) = .refused (.imageTooLong 3585) := by
  have h : (List.replicate 3585 (0 : Byte)).length = 3585 := List.length_replicate
  rw [construct, h]
  rfl

/-- V-SUB: row 5 under the latched order. -/
theorem test_latched : (answer (execSubWith .latched 15 1 (withRegs [(15, 5), (1, 3)]))).map (·.reg 15) = some 1 := by
  decide

/-- The memory of a constructed machine is canonical. -/
theorem test_memory_wf : (answer (construct [0, 1, 0, 2])).map (fun t => (t.mem.wf, t.mem.length)) = some (true, 2) := by
  decide

/-! ## The text of programs (S4, S8, S9, S10) -/

/-- The choices of log 21: an indented label, and an odd binary's last byte. -/
theorem test_text_choices : assemble ["  a: JP a".toList] = .ok [0x12, 0x00] ∧
    disassemble [0x1F, 0xFF, 0x60] = [some "JP 0xFFF".toList] := by decide +kernel

/-- S9. -/
theorem test_assemble : assemble (["start:  ; start", "  LD V0, 0x00", "loop:", "  ADD V0, 0x01 ; add", "  JP loop",
      "end: JP end"].map String.toList) = .ok [0x60, 0x00, 0x70, 0x01, 0x12, 0x02, 0x12, 0x06] := by decide +kernel

/-- S8. -/
theorem test_assemble_errors : assemble ["ADD V4, 0xffa".toList] = .error .valueOutOfRange ∧
    assemble ["ADD I, V-4".toList] = .error .noMatchingFormat := by decide +kernel

/-- S4, S10, and an opcode without a row. -/
theorem test_disassemble : disassemble [0x1F, 0xFF, 0x83, 0x46, 0x5A, 0xB1] =
    [some "JP 0xFFF".toList, some "SHR V3".toList, none] := by decide

/-! ## Witnesses: for each obligation with hypotheses, a state and operands that meet all of them -/

/-- The reset state at `pc`, with the word there. -/
def at_ (pc : Word) (op : Nat) : State := { State.reset with pc := pc }.withFetchWord 16 op

/-- Which rows of the table match an opcode. -/
def rowsMatching (op : Word) : List String := (table.filter (·.matches op)).map (·.mnemonic)

/-- A machine at `pc` in memory with no fault and no wait is running. -/
theorem running_of {s : State} (h : s.fault = false ∧ s.pc.toNat ≤ 0xFFE ∧ s.waiting = false) : Running s :=
  ⟨h.1, h.2.1, h.2.2⟩

theorem wit_DecodeOfEncodeIsTheInstruction : (Instr.drw 15 15 15).wellFormed = true ∧ (Instr.sys 0xFFF).wellFormed = true := by
  decide

/-- A word that is its instruction's encoding, and an SHR with `y` not 0. -/
theorem wit_EncodeOfDecodeIsTheWord : decodeWord 0xD123 = .ok (.drw 1 2 3) ∧ decodeWord 0x8346 = .ok (.shr 3) := ⟨rfl, rfl⟩

/-- Row 3 with the two rows before it: 00E1 matches it and neither of them. -/
theorem wit_RowMatchIsMaskedEquality : ∃ before r after, table = before ++ r :: after ∧
    (∀ q ∈ before, q.matches 0x00E1 = false) ∧ r.matches 0x00E1 = true :=
  ⟨table.take 2, ⟨"SYS_addr", 0x0000, 0xF000, .nnn .sys⟩, table.drop 3, rfl, by decide, by decide⟩

/-- 00E0 matches rows 1 and 3, 00EE rows 2 and 3. -/
theorem wit_OnlySysOverlapsEarlierRows : rowsMatching 0x00E0 = ["CLS", "SYS_addr"] ∧
    rowsMatching 0x00EE = ["RET", "SYS_addr"] := by decide

/-- At the first and at the last address of a fetch. -/
theorem wit_StepRunsTheDecodedInstruction :
    (∃ s, Running s ∧ decode [s.readByte s.pc.toNat, s.readByte (s.pc.toNat + 1)] = .ok (.addReg 4 5, [])) ∧
    (∃ s, Running s ∧ s.pc = 0xFFE ∧ decode [s.readByte s.pc.toNat, s.readByte (s.pc.toNat + 1)] = .ok (.cls, [])) :=
  ⟨⟨at_ 0 0x8454, running_of (by decide), rfl⟩, ⟨at_ 0xFFE 0x00E0, running_of (by decide), rfl, rfl⟩⟩

theorem wit_IllegalOpcodeOnlyAdvances : ∃ s, Running s ∧ ∀ r ∈ table, r.matches s.fetch = false :=
  ⟨at_ 0xFFE 0x5AB1, running_of (by decide), by decide⟩

/-- A machine just past the last fetch address, a step that returns false with no fault, and a self-jump at the first
and at the last address. -/
theorem wit_HaltedStepChangesNothing : (∃ s : State, Halted s ∧ s.pc = 0xFFF) ∧
    (∃ s t, step s = .next t ∧ t.stepResult = false ∧ t.fault = false) ∧
    (∃ s, Running s ∧ AtSelfJump s ∧ s.pc = 0) ∧ ∃ s, Running s ∧ AtSelfJump s ∧ s.pc = 0xFFE :=
  ⟨⟨{ State.reset with pc := 0xFFF }, by decide, rfl⟩, ⟨{ State.reset with pc := 0xFFF }, _, rfl, rfl, rfl⟩,
    ⟨at_ 0 0x1000, running_of (by decide), by decide, rfl⟩, at_ 0xFFE 0x1FFE, running_of (by decide), by decide, rfl⟩

theorem wit_HeldStepChangesNothing : ∃ s : State, s.fault = false ∧ s.pc.toNat ≤ 0xFFE ∧ Held s :=
  ⟨{ State.reset with pc := 0xFFE, waiting := true }, by decide⟩

/-- A step whose change list is not empty. -/
theorem wit_ChangeListIsTheChangedPixels : ∃ s t, step s = .next t ∧ t.changes.length = 2 :=
  ⟨(withSprite [(0, 0xC0)] [(1, 63), (2, 31)]).withFetchWord 16 0xD121, _, rfl, by decide +kernel⟩

/-- `LD B` one address too high, a faulted machine, and a key event. -/
theorem wit_FaultsArePrecise :
    (∃ i s t, exec i s = .next t ∧ s.fault = false ∧ t.fault = true) ∧ (∃ s : State, Faulted s) ∧
    (∃ e s t, e ≠ .step ∧ transition e s = .next t) :=
  ⟨⟨.ldB 0, { State.reset with I := 0xFFE }, _, rfl, rfl, rfl⟩, ⟨{ State.reset with fault := true }, rfl⟩,
    .keyDown 15, State.reset, _, by decide, rfl⟩

/-- The first and the last `I` at which each of the four accesses leaves memory, and the last at which it stays in. -/
theorem wit_OutOfRangeAccessRaisesTheFault :
    (∃ s : State, lastOffset (.storeRegs 15) = some 15 ∧ s.dataAddr 15 = 0x1000) ∧
    (∃ s : State, lastOffset (.loadRegs 0) = some 0 ∧ s.dataAddr 0 = 0xFFFF) ∧
    (∃ s : State, lastOffset (.ldB 3) = some 2 ∧ s.dataAddr 2 = 0x1000) ∧
    (∃ s : State, lastOffset (.drw 1 2 1) = some 0 ∧ s.dataAddr 0 = 0x1000) ∧
    (∃ s t, AccessInMemory (.ldB 3) s ∧ s.dataAddr 2 = 0xFFF ∧ exec (.ldB 3) s = .next t) :=
  ⟨⟨{ State.reset with I := 0xFF1 }, rfl, rfl⟩, ⟨{ State.reset with I := 0xFFFF }, rfl, rfl⟩,
    ⟨{ State.reset with I := 0xFFE }, rfl, rfl⟩, ⟨{ State.reset with I := 0x1000 }, rfl, rfl⟩,
    { State.reset with I := 0xFFD }, _, fun m h => by cases h; decide, rfl, rfl⟩

/-- The reset state meets the invariant and steps. -/
theorem inv_reset : Inv State.reset := ⟨by decide, by decide, by decide⟩

/-- The highest `pc` and the highest slot the invariant allows. -/
theorem wit_StepKeepsInv : (∃ t, Inv State.reset ∧ step State.reset = .next t) ∧
    ∃ s : State, Inv s ∧ s.pc = 0x10FE ∧ s.slot 0 = 0x1000 :=
  ⟨⟨_, inv_reset, rfl⟩, { State.reset with pc := 0x10FE, stack := State.reset.stack.set 0 0x1000 },
    ⟨by decide, by decide, by decide⟩, rfl, rfl⟩

/-- A step and each host event from a state that meets the invariant. -/
theorem wit_EveryTransitionKeepsInv : Inv State.reset ∧
    ∀ e ∈ [Stimulus.step, .keyDown 15, .keyUp 0, .timerTick], ∃ t, transition e State.reset = .next t :=
  ⟨inv_reset, fun e he => by
    simp only [List.mem_cons, List.not_mem_nil, or_false] at he
    rcases he with rfl | rfl | rfl | rfl <;> exact ⟨_, rfl⟩⟩

theorem wit_ConstructedMachineMeetsInv : ∃ t, construct [0x12, 0x00] = .next t := ⟨_, rfl⟩

/-- A state reached by a step and two host events. -/
theorem wit_ReachableStatesMeetInv : ∃ s, Reachable s ∧ s.pc = 0x202 ∧ s.pressed 7 = true :=
  ⟨_, ⟨[0xF0, 0x0A], [.step, .keyDown 7, .timerTick], _, rfl, rfl⟩, rfl, rfl⟩

/-- A halted machine with a pending wait that a key ends, one whose wait stays pending, a faulted one without a wait. -/
theorem wit_StoppedMachineStaysStopped :
    (∃ s t : State, Halted s ∧ trace [.step, .keyDown 5, .timerTick] s = .next t ∧ t.reg 1 = 5) ∧
    (∃ s t : State, Halted s ∧ trace [.step, .keyUp 5] s = .next t ∧ t.waiting = true) ∧
    (∃ s t : State, Faulted s ∧ s.waiting = false ∧ (0 : Reg) ≠ s.waitTarget ∧ trace [.keyDown 5] s = .next t) :=
  ⟨⟨{ State.reset with pc := 0x1000, waiting := true, waitTarget := 1 }, _, by decide, rfl, rfl⟩,
    ⟨{ State.reset with pc := 0xFFF, waiting := true }, _, by decide, rfl, rfl⟩,
    { State.reset with fault := true, waitTarget := 1 }, _, rfl, rfl, by decide, rfl⟩

/-- A flag that is written, a destination that is `VF`, and an instruction that is neither. -/
theorem wit_VFIsWrittenAsFlagByFive :
    (∃ s t, exec (.addReg 4 5) s = .next t ∧ Reg.VF ∉ namedDestinations (.addReg 4 5) ∧ writesFlag (.addReg 4 5) = false) ∧
    (∃ s t, exec (.sub 4 5) s = .next t ∧ Reg.VF ∉ namedDestinations (.sub 4 5) ∧ writesFlag (.sub 4 5) = true ∧
      s.fault = false ∧ t.fault = false ∧ t.reg Reg.VF = 1) :=
  ⟨⟨State.reset, _, rfl, by decide, rfl⟩, withRegs [(4, 1)], _, rfl, by decide, rfl, rfl, rfl, rfl⟩

/-- The register above the last one loaded. -/
theorem wit_OtherRegistersAreUnchanged : ∃ s t, exec (.loadRegs 14) s = .next t ∧ (15 : Reg) ∉ namedDestinations (.loadRegs 14) ∧
    writesFlag (.loadRegs 14) = false := ⟨State.reset, _, rfl, by decide, rfl⟩

/-- Each special field changed by one of its writers. -/
theorem wit_SpecialStateHasItsWriters :
    (∃ t, exec (.ldI 1) State.reset = .next t ∧ t.I ≠ State.reset.I) ∧
    (∃ s t, exec (.ldDT 0) s = .next t ∧ t.DT ≠ s.DT) ∧ (∃ s t, exec (.ldST 0) s = .next t ∧ t.ST ≠ s.ST) ∧
    (∃ t, exec .ret State.reset = .next t ∧ t.sp ≠ State.reset.sp) ∧
    (∃ t, exec (.call 1) State.reset = .next t ∧ t.stack ≠ State.reset.stack) ∧
    (∃ t, exec (.ldVxK 0) State.reset = .next t ∧ t.waiting ≠ State.reset.waiting) ∧
    (∃ s t, exec .cls s = .next t ∧ t.fb.pixel 3 4 ≠ s.fb.pixel 3 4) ∧
    (∃ s t, exec (.storeRegs 0) s = .next t ∧ t.mem ≠ s.mem) ∧
    (∃ t, exec (.rnd 0 1) State.reset = .next t ∧ t.draws ≠ State.reset.draws) :=
  ⟨⟨_, rfl, by decide⟩, ⟨withRegs [(0, 1)], _, rfl, by decide⟩, ⟨withRegs [(0, 1)], _, rfl, by decide⟩,
    ⟨_, rfl, by decide⟩, ⟨_, rfl, by decide⟩, ⟨_, rfl, by decide⟩,
    ⟨{ State.reset with fb := Framebuffer.clear.flip 3 4 }, _, rfl, by decide⟩,
    ⟨{ withRegs [(0, 1)] with I := 0x300 }, _, rfl, by decide⟩, ⟨_, rfl, by decide⟩⟩

/-- A step and a tick that change `DT`; a timer above 0 and a timer at 0. -/
theorem wit_DelayTimerMovesOnTickAlone : (∃ s t, transition .step s = .next t ∧ t.DT ≠ s.DT) ∧
    (∃ s t, transition .timerTick s = .next t ∧ t.DT ≠ s.DT) ∧
    (∃ s : State, 0 < s.DT.toNat ∧ s.DT = 1) ∧ ∃ s : State, s.DT = 0 :=
  ⟨⟨(withRegs [(0, 7)]).withFetchWord 16 0xF015, _, rfl, by decide⟩, ⟨{ State.reset with DT := 1 }, _, rfl, by decide⟩,
    ⟨{ State.reset with DT := 1 }, by decide, rfl⟩, State.reset, rfl⟩

/-- A step and a tick that change `ST`; a timer above 0 and a timer at 0. -/
theorem wit_SoundTimerIsNeverRead : (∃ s t, transition .step s = .next t ∧ t.ST ≠ s.ST) ∧
    (∃ s t, transition .timerTick s = .next t ∧ t.ST ≠ s.ST) ∧
    (∃ s : State, 0 < s.ST.toNat ∧ s.ST = 1) ∧ ∃ s : State, s.ST = 0 :=
  ⟨⟨(withRegs [(0, 7)]).withFetchWord 16 0xF018, _, rfl, by decide⟩, ⟨{ State.reset with ST := 1 }, _, rfl, by decide⟩,
    ⟨{ State.reset with ST := 1 }, by decide, rfl⟩, State.reset, rfl⟩

theorem wit_StackAndKeysReachOnlyTheirReaders : Instr.call 1 ≠ .ret ∧ ∀ x, Instr.drw 0 1 2 ≠ .skp x ∧ Instr.drw 0 1 2 ≠ .sknp x := by
  decide

/-- The pointer at its wrap: the call saves in slot 15, and the return comes from there. -/
theorem wit_CallThenRetReturns : ∃ s t, ∃ u : State, exec (.call 0x300) s = .next t ∧ u.stack = t.stack ∧ u.sp = t.sp ∧ s.sp = 15 ∧
    u.pc = 0x310 :=
  ⟨{ State.reset with sp := 15 }, _, { State.reset with
    pc := 0x310, sp := 0, stack := State.reset.stack.set 15 0x202 }, rfl, by decide, rfl, rfl, rfl⟩

theorem wit_RegisterSkips : (1 : BitVec 4) ≠ 0 ∧ (15 : BitVec 4) ≠ 0 := by decide

/-- The last address; a jump to the address it stands at, run at the last address of a fetch. -/
theorem wit_JpGoesToTheAddress : (0xFFF : Addr) = 0xFFF ∧ (∃ s : State, s.pc.toNat = (0x200 : Addr).toNat) ∧
    ∃ s : State, Running s ∧ decodeWord s.fetch = .ok (.jp 0xFFE) ∧ s.pc.toNat = (0xFFE : Addr).toNat :=
  ⟨rfl, ⟨State.reset, rfl⟩, at_ 0xFFE 0x1FFE, running_of (by decide), rfl, rfl⟩

theorem wit_SubWritesTheFlagFirst : (14 : Reg) ≠ Reg.VF := by decide

theorem wit_SubnWritesTheFlagFirst : (0 : Reg) ≠ Reg.VF := by decide

theorem wit_ShiftsWriteTheFlagFirst : (3 : Reg) ≠ Reg.VF := by decide

/-- The highest `I` at which the three digits fit. -/
theorem wit_LdBStoresTheDigits : ∃ s : State, s.mem.wf = true ∧ s.dataAddr 2 ≤ 0xFFF ∧ s.I = 0xFFD :=
  ⟨{ State.reset with I := 0xFFD }, by decide⟩

/-- The highest `I` at which all sixteen registers fit. -/
theorem wit_StoreRegsStoresEachRegister : ∃ s : State, s.mem.wf = true ∧ s.dataAddr 15 ≤ 0xFFF ∧ s.I = 0xFF0 :=
  ⟨{ State.reset with I := 0xFF0 }, by decide⟩

theorem wit_LoadRegsLoadsEachRegister : ∃ s : State, s.dataAddr 15 ≤ 0xFFF ∧ s.I = 0xFF0 :=
  ⟨{ State.reset with I := 0xFF0 }, by decide⟩

/-- Both fetched bytes stored, the second only, the first only; and the digits at the end of memory. -/
theorem wit_StoredCodeIsFetchedNext :
    (∃ s : State, s.mem.wf = true ∧ s.dataAddr 1 ≤ 0xFFF ∧ (s.pc + 2).toNat = s.dataAddr 0) ∧
    (∃ s : State, s.mem.wf = true ∧ s.dataAddr 0 ≤ 0xFFF ∧ (s.pc + 2).toNat + 1 = s.dataAddr 0) ∧
    (∃ s : State, s.mem.wf = true ∧ s.dataAddr 15 ≤ 0xFFF ∧ (s.pc + 2).toNat = s.dataAddr 15) ∧
    (∃ s : State, s.mem.wf = true ∧ s.dataAddr 2 ≤ 0xFFF ∧ (s.pc + 2).toNat = s.dataAddr 1 ∧ s.I = 0xFFD) :=
  ⟨⟨{ State.reset with I := 0x202 }, by decide⟩, ⟨{ State.reset with I := 0x203 }, by decide⟩,
    ⟨{ State.reset with I := 0xFF0, pc := 0xFFD }, by decide⟩, { State.reset with I := 0xFFD, pc := 0xFFC }, by decide⟩

/-- A sprite at the last byte of memory, and one of no rows with `I` above memory. -/
theorem wit_DrwFlipsTheCoveredPixels :
    (∃ s, AccessInMemory (.drw 1 2 1) s ∧ s.I = 0xFFF ∧ SpriteCovers s 1 2 1 0 0) ∧
    (∃ s, AccessInMemory (.drw 1 2 0) s ∧ s.I = 0x1234) :=
  ⟨⟨{ State.reset with I := 0xFFF, mem := State.reset.mem.write 0xFFF 0x80 }, fun m h => by cases h; decide, rfl,
      0, 0, by decide⟩,
    { State.reset with I := 0x1234 }, fun m h => absurd h (by simp [lastOffset]), rfl⟩

/-- The two collision clauses: a covered pixel that is on, and none. -/
theorem wit_DrwFlipsTheCoveredPixels_collision :
    (∃ s : State, ∃ px py, SpriteCovers s 1 2 1 px py ∧ s.fb.pixel px py = true) ∧
    (∃ s : State, ¬ ∃ px py, SpriteCovers s 1 2 1 px py ∧ s.fb.pixel px py = true) :=
  ⟨⟨{ State.reset with fb := Framebuffer.clear.flip 0 0 }, 0, 0, ⟨0, 0, by decide⟩, by decide⟩,
    State.reset, fun ⟨px, py, _, h⟩ => by
      rw [show State.reset.fb = Framebuffer.clear from rfl, Framebuffer.pixel_clear] at h
      cases h⟩

theorem wit_DrawingTwiceRestores : ∃ s t, AccessInMemory (.drw 1 2 5) s ∧ exec (.drw 1 2 5) s = .next t ∧
    t.reg 1 = s.reg 1 ∧ t.reg 2 = s.reg 2 ∧ SpriteCovers s 1 2 5 0 0 ∧ s.fb.pixel 0 0 = false :=
  ⟨State.reset, _, fun m h => by cases h; decide, rfl, rfl, rfl, ⟨0, 0, by decide⟩, by decide⟩

/-- The last key code and the first that is none; a machine that waits and one that does not. -/
theorem wit_KeyEventsFollowTheirContract : 15 < 16 ∧ 16 ≤ 16 ∧ (∃ s : State, s.waiting = true) ∧ ∃ s : State, s.waiting = false :=
  ⟨by decide, by decide, ⟨{ State.reset with waiting := true }, rfl⟩, State.reset, rfl⟩

/-- At the highest address that leaves room for the next instruction. -/
theorem wit_KeyWaitEndsWithTheFirstKeyDown : ∃ s : State, Running s ∧ s.pc = 0xFFC ∧ decodeWord s.fetch = .ok (.ldVxK 3) ∧
    ∀ e ∈ [Stimulus.step, .timerTick, .keyUp 15], e = .step ∨ e = .timerTick ∨ ∃ k, k < 16 ∧ e = .keyUp k :=
  ⟨at_ 0xFFC 0xF30A, running_of (by decide), rfl, rfl, by
    intro e he
    simp only [List.mem_cons, List.not_mem_nil, or_false] at he
    rcases he with rfl | rfl | rfl
    · exact .inl rfl
    · exact .inr (.inl rfl)
    · exact .inr (.inr ⟨15, by decide, rfl⟩)⟩

/-- The longest image, and one byte more. -/
theorem wit_ConstructionPlacesFontAndImage : (List.replicate 3584 (1 : Byte)).length ≤ 3584 ∧
    3584 < (List.replicate 3585 (1 : Byte)).length := by
  rw [List.length_replicate, List.length_replicate]
  decide

/-- Every parameter at its other value, on an instruction that reaches none of the points they decide. -/
theorem wit_ParametersMatterOnlyAtTheirPoints : ∃ (p : Params) (s : State), p ≠ hardware ∧
    (s.waiting = true → p.waitHolds = true) ∧
    (∀ i, decodeWord s.fetch = .ok i → AccessInMemory i s ∧ usesVFAsOperand i = false ∧
      ∀ x, i = .ldF x → (s.reg x).toNat ≤ 15) :=
  ⟨⟨.wrap4096, .latched, false, .lowNibble⟩, at_ 0x200 0x8015, by decide, fun h => absurd h (by decide), fun i h => by
    have : i = .sub 0 1 := by
      have : decodeWord (at_ 0x200 0x8015).fetch = .ok (.sub 0 1) := rfl
      rw [this] at h
      exact (Except.ok.inj h).symm
    subst this
    exact ⟨(fun m h => nomatch h), rfl, (fun x h => nomatch h)⟩⟩

end Sys2Proof.Tests
end

/-! Proofs of the state family (10_state.md): who writes what, the machine's invariant, stopped machines, the change
list, and what is read by no step. -/

namespace Sys2Proof.Machine

/-! ## What an instruction can do -/

/-- How an instruction leaves the register file: registers it neither names as destination nor writes as a flag are as
before, and a flag written beside the destination is 0 or 1 (10_state.md R22, R27). -/
structure RegWrites (i : Instr) (s t : State) : Prop where
  others : ∀ k, k ∉ namedDestinations i → (writesFlag i = true → k ≠ Reg.VF) → t.reg k = s.reg k
  flag : writesFlag i = true → Reg.VF ∉ namedDestinations i → t.reg Reg.VF = 0 ∨ t.reg Reg.VF = 1

/-- The ways an instruction changes the state, by the fields it writes. Each writer of a special field is named. -/
inductive Effect (s : State) : Instr → State → Prop
  | fault (i : Instr) : Effect s i { s with fault := true }
  | goto {i : Instr} {target : Word} (flag : writesFlag i = false)
      (bound : target = s.pc + 2 ∨ target = s.pc + 4 ∨ target.toNat ≤ 0x10FE) : Effect s i (s.jump target)
  | ret : Effect s .ret s.popPc
  | call (nnn : Addr) : Effect s (.call nnn) ((s.push s.nextpc).jump (zext16 nnn))
  | regs {i : Instr} {V : Vector Byte 16} (writes : RegWrites i s { s with V := V }) :
      Effect s i ({ s with V := V }).advance
  | rnd {x : Reg} {kk : Byte} {V : Vector Byte 16} (writes : RegWrites (.rnd x kk) s { s with V := V }) :
      Effect s (.rnd x kk) ({ s with V := V, draws := s.draws + 1 }).advance
  | draw {i : Instr} {V : Vector Byte 16} {fb : Framebuffer} (writer : i = .cls ∨ ∃ x y n, i = .drw x y n)
      (writes : RegWrites i s { s with V := V }) : Effect s i ({ s with V := V, fb := fb }).advance
  | index {i : Instr} {a : Word} (writer : (∃ nnn, i = .ldI nnn) ∨ ∃ x, i = .addI x ∨ i = .ldF x) :
      Effect s i ({ s with I := a }).advance
  | store {i : Instr} {m : Memory} (writer : ∃ x, i = .ldB x ∨ i = .storeRegs x)
      (wf : s.mem.wf = true → m.wf = true) : Effect s i ({ s with mem := m }).advance
  | wait (x : Reg) : Effect s (.ldVxK x) ({ s with waiting := true, waitTarget := x }).advance
  | delay (x : Reg) : Effect s (.ldDT x) ({ s with DT := s.reg x }).advance
  | sound (x : Reg) : Effect s (.ldST x) ({ s with ST := s.reg x }).advance

/-! ### The register writers -/

theorem flagByte_zero_or_one (b : Bool) : flagByte b = 0 ∨ flagByte b = 1 := by cases b <;> simp [flagByte]

theorem flagGreater_zero_or_one (a b : Byte) : flagGreater a b = 0 ∨ flagGreater a b = 1 := flagByte_zero_or_one _

/-- A byte below 2 is 0 or 1. -/
theorem byte_zero_or_one {v : Byte} (h : v.toNat < 2) : v = 0 ∨ v = 1 := by
  have : v.toNat = 0 ∨ v.toNat = 1 := by omega
  exact this.imp (fun h => BitVec.eq_of_toNat_eq h) (fun h => BitVec.eq_of_toNat_eq h)

theorem flagLowBit_zero_or_one (a : Byte) : flagLowBit a = 0 ∨ flagLowBit a = 1 :=
  byte_zero_or_one (by rw [flagLowBit_toNat]; omega)

theorem flagHighBit_zero_or_one (a : Byte) : flagHighBit a = 0 ∨ flagHighBit a = 1 :=
  byte_zero_or_one (by have := a.isLt; rw [flagHighBit_toNat]; omega)

/-- An instruction that writes no flag may leave every register alone. -/
theorem RegWrites.none {i : Instr} (s : State) (hf : writesFlag i = false) : RegWrites i s s :=
  ⟨fun _ _ _ => rfl, fun h => by simp [hf] at h⟩

/-- Writing the one destination of an instruction that writes no flag. -/
theorem RegWrites.setReg {i : Instr} {x : Reg} (s : State) (v : Byte) (hd : namedDestinations i = [x])
    (hf : writesFlag i = false) : RegWrites i s (s.setReg x v) where
  others k hk _ := State.reg_setReg_ne s v (by simpa [hd] using hk)
  flag h := by simp [hf] at h

/-- Writing the flag and the destination of SUB, SUBN, SHR or SHL. -/
theorem RegWrites.flagAndResult {i : Instr} {x : Reg} (s : State) (f r : State → Byte) (hd : namedDestinations i = [x])
    (hw : writesFlag i = true) (hf : f s = 0 ∨ f s = 1) :
    RegWrites i s (flagAndResult .sequential x f r s) where
  others k hk hVF := flagAndResult_other _ (by simpa [hd] using hk) (hVF hw) f r s
  flag _ hx := by
    rw [flagAndResult_flag (fun h => hx (by simp [hd, h])) f r s]
    exact hf

/-- Loading registers 0 to x writes no other register. -/
theorem RegWrites.loadEach (s : State) (x : Reg) :
    RegWrites (.loadRegs x) s (loadEach .fault s (regsUpTo x)) where
  others k hk _ := ((loadEach_spec s _).2 k).trans (if_neg hk)
  flag h := nomatch h

/-- DRW writes its collision flag to `VF` alone. -/
theorem RegWrites.drw (s : State) (x y : Reg) (n : Nibble) (b : Bool) :
    RegWrites (.drw x y n) s (s.setReg .VF (flagByte b)) where
  others k _ hVF := State.reg_setReg_ne s _ (hVF rfl)
  flag _ _ := by
    rw [State.reg_setReg_same]
    exact flagByte_zero_or_one b

/-! ### The effect of each instruction -/

/-- A skip goes to one of the next two instructions. -/
theorem Effect.skip {i : Instr} (s : State) (c : Bool) (hf : writesFlag i = false) : Effect s i (skipIf c s) := by
  cases c
  · exact .goto hf (.inl rfl)
  · exact .goto hf (.inr (.inl rfl))

/-- SUB, SUBN, SHR and SHL write the register file by their flag and their result. -/
theorem Effect.flagAndResult {i : Instr} {x : Reg} (s : State) (f r : State → Byte) (hd : namedDestinations i = [x])
    (hw : writesFlag i = true) (hf : f s = 0 ∨ f s = 1) : Effect s i (flagAndResult .sequential x f r s).advance := by
  have w := RegWrites.flagAndResult s f r hd hw hf
  rw [flagAndResult_rest] at w ⊢
  exact .regs w

/-- A 12-bit address plus a byte is at most 0x10FE (10_state.md R24). -/
theorem toNat_zext16_add_le (nnn : Addr) (v : Byte) : (zext16 nnn + zext16 v).toNat ≤ 0x10FE := by
  simp only [zext16]
  bv_omega

theorem toNat_zext16_le (nnn : Addr) : (zext16 nnn).toNat ≤ 0xFFF := by
  simp only [zext16]
  bv_omega

/-- A guarded access either faults or has the effect of what it guards. -/
theorem Effect.guarded {i : Instr} {s done : State} (p : OobPolicy) (last : Nat) (h : Effect s i done) :
    ∃ t, ifInRange p last s done = .next t ∧ Effect s i t := by
  rcases ifInRange_cases p last s done with e | ⟨-, -, e⟩
  · exact ⟨_, e, h⟩
  · exact ⟨_, e, .fault i⟩

/-- Every instruction answers a next state, by one of the effects. -/
theorem exec_spec (i : Instr) (s : State) : ∃ t, exec i s = .next t ∧ Effect s i t := by
  cases i with
  | cls => exact ⟨_, rfl, .draw (.inl rfl) (.none s rfl)⟩
  | ret => exact ⟨_, rfl, .ret⟩
  | sys nnn => exact ⟨_, rfl, .goto rfl (.inl rfl)⟩
  | jp nnn => exact ⟨_, rfl, .goto rfl (.inr (.inr ((toNat_zext16_le nnn).trans (by decide))))⟩
  | call nnn => exact ⟨_, rfl, .call nnn⟩
  | jpV0 nnn => exact ⟨_, rfl, .goto rfl (.inr (.inr (toNat_zext16_add_le nnn _)))⟩
  | seByte | sneByte | seReg | sneReg | skp | sknp => exact ⟨_, rfl, .skip s _ rfl⟩
  | ldByte | addByte | ldReg | orReg | andReg | xorReg | addReg | ldVxDT =>
    exact ⟨_, rfl, .regs (.setReg s _ rfl rfl)⟩
  | sub | subn => exact ⟨_, rfl, .flagAndResult s _ _ rfl rfl (flagGreater_zero_or_one _ _)⟩
  | shr => exact ⟨_, rfl, .flagAndResult s _ _ rfl rfl (flagLowBit_zero_or_one _)⟩
  | shl => exact ⟨_, rfl, .flagAndResult s _ _ rfl rfl (flagHighBit_zero_or_one _)⟩
  | rnd => exact ⟨_, rfl, .rnd (.setReg s _ rfl rfl)⟩
  | drw x y n =>
    have h : Effect s (.drw x y n) (drawn .fault x y n s) := .draw (.inr ⟨x, y, n, rfl⟩) (.drw s x y n _)
    by_cases hn : n.val = 0
    · exact ⟨_, if_pos hn, h⟩
    · obtain ⟨t, e, ht⟩ := h.guarded .fault (s.dataAddr (n.val - 1))
      exact ⟨t, (if_neg hn).trans e, ht⟩
  | ldI nnn => exact ⟨_, rfl, .index (.inl ⟨nnn, rfl⟩)⟩
  | addI x => exact ⟨_, rfl, .index (.inr ⟨x, .inl rfl⟩)⟩
  | ldF x => exact ⟨_, rfl, .index (.inr ⟨x, .inr rfl⟩)⟩
  | ldVxK x => exact ⟨_, rfl, .wait x⟩
  | ldDT x => exact ⟨_, rfl, .delay x⟩
  | ldST x => exact ⟨_, rfl, .sound x⟩
  | ldB x => exact (Effect.store ⟨x, .inl rfl⟩ (storeFrom_wf _ _ _)).guarded _ _
  | storeRegs x => exact (Effect.store ⟨x, .inr rfl⟩ (storeFrom_wf _ _ _)).guarded _ _
  | loadRegs x =>
    obtain ⟨V, hV⟩ := (loadEach_spec s (regsUpTo x)).1
    have w := RegWrites.loadEach s x
    rw [hV] at w
    have h : Effect s (.loadRegs x) (loadEach .fault s (regsUpTo x)).advance := hV ▸ .regs w
    exact h.guarded _ _

/-- The inversion of `exec`. -/
theorem exec_effect {i : Instr} {s t : State} (h : exec i s = .next t) : Effect s i t := by
  obtain ⟨u, e, hu⟩ := exec_spec i s
  rw [h] at e
  cases e
  exact hu

/-- A step either idles or ends a run of the fetched opcode: an instruction's, or an illegal opcode's advance. -/
theorem step_idle_or_run {s t : State} (h : step s = .next t) :
    (∃ r, t = s.idle r) ∨
    (s.pc.toNat ≤ 0xFFE ∧ ∃ u, t = u.finish s.fb ∧
      ((∃ i, decodeWord s.fetch = .ok i ∧ exec i s = .next u) ∨ u = s.advance)) := by
  rcases step_cases h with ⟨-, e⟩ | ⟨-, -, e⟩ | ⟨-, -, -, e⟩ | ⟨hr, i, u, hd, hu, e⟩ | ⟨hr, -, -, e⟩
  · exact .inl ⟨_, e⟩
  · exact .inl ⟨_, e⟩
  · exact .inl ⟨_, e⟩
  · exact .inr ⟨hr.inMemory, u, e, .inl ⟨i, hd, hu⟩⟩
  · exact .inr ⟨hr.inMemory, _, e, .inr rfl⟩

/-! ## The invariant -/

/-- Moving `pc` within its bound and leaving memory and the stack alone keeps the invariant. -/
theorem Inv.move {s t : State} (h : Inv s) (hm : t.mem = s.mem) (hst : t.stack = s.stack)
    (hpc : t.pc.toNat ≤ 0x10FE) : Inv t where
  mem_wf := hm ▸ h.mem_wf
  pc_le := hpc
  stack_le k := State.slot_congr hst k ▸ h.stack_le k

/-- The two addresses after a fetch address do not wrap (10_state.md R24). -/
theorem toNat_add_two {pc : Word} (h : pc.toNat ≤ 0xFFE) : (pc + 2).toNat = pc.toNat + 2 := by bv_omega

theorem toNat_add_four {pc : Word} (h : pc.toNat ≤ 0xFFE) : (pc + 4).toNat = pc.toNat + 4 := by bv_omega

/-- An instruction run from a fetch address keeps the invariant. -/
theorem Effect.keeps_inv {i : Instr} {s t : State} (e : Effect s i t) (h : Inv s) (hpc : s.pc.toNat ≤ 0xFFE) :
    Inv t := by
  have next_le : (s.pc + 2).toNat ≤ 0x1000 := by rw [toNat_add_two hpc]; omega
  have next_le' : (s.pc + 2).toNat ≤ 0x10FE := next_le.trans (by decide)
  cases e with
  | fault => exact h.move rfl rfl h.pc_le
  | goto _ bound =>
    refine h.move rfl rfl ?_
    rcases bound with rfl | rfl | hb
    · exact next_le'
    · show (s.pc + 4).toNat ≤ 0x10FE
      rw [toNat_add_four hpc]
      omega
    · exact hb
  | ret => exact h.move rfl rfl ((h.stack_le _).trans (by decide))
  | call nnn =>
    refine ⟨h.mem_wf, (toNat_zext16_le nnn).trans (by decide), fun k => ?_⟩
    show ((s.push s.nextpc).slot k).toNat ≤ 0x1000
    by_cases hk : k = s.sp
    · rw [hk, State.slot_push_same]
      exact next_le
    · rw [State.slot_push_ne _ _ hk]
      exact h.stack_le k
  | store _ wf => exact ⟨wf h.mem_wf, next_le', h.stack_le⟩
  | regs | rnd | draw | index | wait | delay | sound => exact h.move rfl rfl next_le'

/-- Every step keeps the invariant: an idle one moves nothing the invariant speaks of, and a run starts at a fetch
address; an illegal opcode advances as SYS does. -/
theorem step_keeps_inv {s t : State} (h : Inv s) (hs : step s = .next t) : Inv t := by
  rcases step_idle_or_run hs with ⟨r, rfl⟩ | ⟨hpc, u, rfl, hu⟩
  · exact h.move rfl rfl h.pc_le
  · have hi : Inv u := by
      rcases hu with ⟨i, -, hu⟩ | rfl
      · exact (exec_effect hu).keeps_inv h hpc
      · exact (exec_effect (i := .sys 0) rfl).keeps_inv h hpc
    exact hi.move rfl rfl hi.pc_le

/-- Settles O16, by the effects of the instructions. -/
theorem stepKeepsInv : Obligations.StepKeepsInv := fun _ _ => step_keeps_inv

/-! ## Transitions and traces -/

/-- The four transitions, each with what it does. -/
theorem transition_cases {e : Stimulus} {s t : State} (h : transition e s = .next t) :
    (e = .step ∧ step s = .next t) ∨
    (∃ c : Fin 16, e = .keyDown c.val ∧ t = s.keyPressed c) ∨
    (∃ c : Fin 16, e = .keyUp c.val ∧ t = { s with keys := s.keys.set c.val false }) ∨
    (e = .timerTick ∧ t = { s with DT := tickDown s.DT, ST := tickDown s.ST }) := by
  cases e with
  | step => exact .inl ⟨rfl, h⟩
  | keyDown c =>
    rw [transition, keyDown] at h
    split at h
    · rename_i hc
      cases h
      exact .inr (.inl ⟨⟨c, hc⟩, rfl, rfl⟩)
    · cases h
  | keyUp c =>
    rw [transition, keyUp] at h
    split at h
    · rename_i hc
      cases h
      exact .inr (.inr (.inl ⟨⟨c, hc⟩, rfl, rfl⟩))
    · cases h
  | timerTick =>
    cases h
    exact .inr (.inr (.inr ⟨rfl, rfl⟩))

/-- A host event changes at most the register file, the end of the wait, the keys and the timers. -/
theorem hostEvent_rest {e : Stimulus} {s t : State} (he : e ≠ .step) (h : transition e s = .next t) :
    t = { s with V := t.V, waiting := t.waiting, keys := t.keys, DT := t.DT, ST := t.ST } := by
  rcases transition_cases h with ⟨rfl, -⟩ | ⟨c, -, rfl⟩ | ⟨c, -, rfl⟩ | ⟨-, rfl⟩
  · exact absurd rfl he
  · rw [s.keyPressed_rest c]
  · rfl
  · rfl

/-- What every transition keeps, every trace keeps. -/
theorem trace_keeps {P : State → Prop} (hP : ∀ e s t, P s → transition e s = .next t → P t) {es : List Stimulus}
    {s t : State} (hs : P s) (h : trace es s = .next t) : P t := by
  induction es generalizing s with
  | nil =>
    cases h
    exact hs
  | cons e es ih =>
    rw [trace] at h
    cases he : transition e s with
    | next u =>
      rw [he] at h
      exact ih (hP e s u hs he) h
    | fault r => simp [he] at h
    | refused r => simp [he] at h

/-- Every transition keeps the invariant. -/
theorem transition_keeps_inv (e : Stimulus) (s t : State) (h : Inv s) (ht : transition e s = .next t) : Inv t := by
  by_cases he : e = .step
  · subst he
    exact step_keeps_inv h ht
  · rw [hostEvent_rest he ht]
    exact h.move rfl rfl h.pc_le

/-- Settles O60: a step by O16, and a host event moves none of what the invariant speaks of. -/
theorem everyTransitionKeepsInv : Obligations.EveryTransitionKeepsInv := transition_keeps_inv

/-- Settles O17: the reset memory has no entry, and every slot is 0. -/
theorem resetStateMeetsInv : Obligations.ResetStateMeetsInv := ⟨rfl, by decide, by decide⟩

/-- Settles O18: a constructed machine is the reset state with an image written to memory. -/
theorem constructedMachineMeetsInv : Obligations.ConstructedMachineMeetsInv := by
  intro image t h
  rw [construct] at h
  split at h
  · cases h
    exact ⟨Memory.writeBytes_wf _ _ resetStateMeetsInv.mem_wf, resetStateMeetsInv.pc_le, resetStateMeetsInv.stack_le⟩
  · cases h

/-- Settles O19: construction meets the invariant and every transition of the trace keeps it. -/
theorem reachableStatesMeetInv : Obligations.ReachableStatesMeetInv := by
  rintro s ⟨image, stimuli, start, hc, ht⟩
  exact trace_keeps transition_keeps_inv (constructedMachineMeetsInv image start hc) ht

/-! ## Stopped machines -/

/-- What may differ after a stopped machine `s` has come to `t`: the registers (only the wait's target, and none unless
a pending wait has ended), the wait flag, the keys, the timers and the outputs. -/
structure StoppedFrom (s t : State) : Prop where
  rest : t = { s with V := t.V, waiting := t.waiting, keys := t.keys, DT := t.DT, ST := t.ST, changes := t.changes,
                      stepResult := t.stepResult }
  regs : ∀ k, k ≠ s.waitTarget → t.reg k = s.reg k
  noWait : s.waiting = false → t.waiting = false ∧ t.V = s.V
  pending : t.waiting = true → t.V = s.V

/-- A change that keeps the registers and the wait flag is one a stopped machine may make. -/
theorem StoppedFrom.of_rest {s t : State} (hV : t.V = s.V) (hw : t.waiting = s.waiting)
    (h : t = { s with V := t.V, waiting := t.waiting, keys := t.keys, DT := t.DT, ST := t.ST, changes := t.changes,
                      stepResult := t.stepResult }) : StoppedFrom s t where
  rest := h
  regs k _ := State.reg_congr hV k
  noWait h0 := ⟨hw.trans h0, hV⟩
  pending _ := hV

theorem StoppedFrom.waitTarget_eq {s t : State} (h : StoppedFrom s t) : t.waitTarget = s.waitTarget := by rw [h.rest]

/-- A stopped machine stays stopped. -/
theorem StoppedFrom.stopped {s t : State} (h : StoppedFrom s t) (hs : Faulted s ∨ Halted s) :
    Faulted t ∨ Halted t := by
  rw [h.rest]
  exact hs

/-- What a stopped machine may do composes: once a wait has ended, no other comes to be pending. -/
theorem StoppedFrom.trans {s u t : State} (h : StoppedFrom s u) (k : StoppedFrom u t) : StoppedFrom s t where
  rest := by rw [k.rest, h.rest]
  regs r hr := (k.regs r (h.waitTarget_eq ▸ hr)).trans (h.regs r hr)
  noWait h0 := by
    obtain ⟨hu, hV⟩ := h.noWait h0
    obtain ⟨ht, hV'⟩ := k.noWait hu
    exact ⟨ht, hV'.trans hV⟩
  pending ht := by
    cases hu : u.waiting with
    | false =>
      rw [(k.noWait hu).1] at ht
      cases ht
    | true => exact (k.pending ht).trans (h.pending hu)

/-- A key press writes the wait's target, if a wait is pending, and ends the wait. -/
theorem StoppedFrom.keyPressed (s : State) (c : Fin 16) : StoppedFrom s (s.keyPressed c) where
  rest := by rw [s.keyPressed_rest c]
  regs k hk := by
    cases hw : s.waiting with
    | false => simp [State.keyPressed, hw, State.reg]
    | true =>
      simp only [State.keyPressed, hw, if_true]
      exact State.reg_setReg_ne _ _ hk
  noWait h0 := by simp [State.keyPressed, h0]
  pending ht := by
    rw [s.keyPressed_rest c] at ht
    cases ht

/-- A machine that does not run idles, and answers true if all that keeps it is a wait. -/
theorem step_not_running {s : State} (h : ¬ Running s) : step s = .next (s.idle (!s.fault && s.pcInMemory)) := by
  cases hf : s.fault with
  | true => simp [step, cycle, hf]
  | false =>
    cases hm : s.pcInMemory with
    | false => simp [step, cycle, hf, hm]
    | true =>
      have hw : s.waiting = true := by
        by_contra hw
        exact h ⟨hf, s.pcInMemory_iff.1 hm, by simpa using hw⟩
      simp [step, cycle, hf, hm, hw, hardware]

/-- A step of a stopped machine idles and answers false. -/
theorem step_stopped {s : State} (hs : Faulted s ∨ Halted s) : step s = .next (s.idle false) := by
  have hr : ¬ Running s := fun r =>
    hs.elim (fun hf => absurd (r.notFaulted.symm.trans hf) (by decide)) (Nat.not_lt.2 r.inMemory)
  have hb : (!s.fault && s.pcInMemory) = false := by
    rcases hs with hf | hp
    · simp [hf]
    · simp [State.pcInMemory, hp]
  rw [step_not_running hr, hb]

/-- One transition of a stopped machine. -/
theorem transition_stopped {e : Stimulus} {s t : State} (hs : Faulted s ∨ Halted s) (h : transition e s = .next t) :
    StoppedFrom s t := by
  rcases transition_cases h with ⟨-, h⟩ | ⟨c, -, rfl⟩ | ⟨c, -, rfl⟩ | ⟨-, rfl⟩
  · rw [step_stopped hs] at h
    cases h
    exact .of_rest rfl rfl rfl
  · exact .keyPressed s c
  · exact .of_rest rfl rfl rfl
  · exact .of_rest rfl rfl rfl

/-- Settles O20: every transition of a stopped machine is one of the changes allowed, and they compose. -/
theorem stoppedMachineStaysStopped : Obligations.StoppedMachineStaysStopped := by
  intro es s t hs ht
  have ⟨rest, regs, noWait, pending⟩ : StoppedFrom s t :=
    trace_keeps (fun e u v hu hv => hu.trans (transition_stopped (hu.stopped hs) hv)) (.of_rest rfl rfl rfl) ht
  exact ⟨rest, regs, noWait, pending⟩

/-! ## The change list -/

/-- A triple is in the change list when its pixel differs and it holds the new value (10_state.md R38). -/
theorem Framebuffer.mem_changes {a b : Framebuffer} {p : PixelChange} :
    p ∈ Framebuffer.changes a b ↔ b.pixel p.x p.y ≠ a.pixel p.x p.y ∧ p.newState = b.pixel p.x p.y := by
  rw [Framebuffer.changes, mem_changesFrom]
  constructor
  · rintro ⟨i, ca, cb, hca, hcb, hp⟩
    obtain ⟨j, va, vb, hva, hvb, hne, rfl⟩ := mem_columnChanges.1 hp
    obtain ⟨hi, rfl⟩ := List.getElem?_eq_some_iff.1 hca
    obtain ⟨_, rfl⟩ := List.getElem?_eq_some_iff.1 hcb
    obtain ⟨hj, rfl⟩ := List.getElem?_eq_some_iff.1 hva
    obtain ⟨_, rfl⟩ := List.getElem?_eq_some_iff.1 hvb
    rw [Vector.length_toList] at hi hj
    have hx : columnOf (0 + i) = ⟨i, hi⟩ := Fin.ext (by simp [columnOf, Fin.ofNat, Nat.mod_eq_of_lt hi])
    have hy : rowOf (0 + j) = ⟨j, hj⟩ := Fin.ext (by simp [rowOf, Fin.ofNat, Nat.mod_eq_of_lt hj])
    rw [hx, hy]
    exact ⟨fun e => hne (by simpa [Framebuffer.pixel] using e.symm), by simp [Framebuffer.pixel]⟩
  · rintro ⟨hne, hnew⟩
    obtain ⟨x, y, v⟩ := p
    refine ⟨x.val, a[x.val], b[x.val], by simp, by simp, mem_columnChanges.2
      ⟨y.val, a.pixel x y, b.pixel x y, by simp [Framebuffer.pixel], by simp [Framebuffer.pixel], hne.symm, ?_⟩⟩
    have hx : columnOf (0 + x.val) = x := Fin.ext (by simp [columnOf, Fin.ofNat])
    have hy : rowOf (0 + y.val) = y := Fin.ext (by simp [rowOf, Fin.ofNat])
    rw [hx, hy]
    exact congrArg (PixelChange.mk x y) hnew

/-- The changes of one column have different rows, so none occurs twice. -/
theorem nodup_columnChanges {x y : Nat} {as bs : List Bool} (h : y + as.length ≤ 32) :
    (columnChanges x y as bs).Nodup := by
  induction as generalizing y bs with
  | nil => simp [columnChanges]
  | cons a as ih =>
    cases bs with
    | nil => simp [columnChanges]
    | cons b bs =>
      rw [List.length_cons] at h
      have tail : (columnChanges x (y + 1) as bs).Nodup := ih (by omega)
      rw [columnChanges]
      split
      · exact tail
      · refine List.nodup_cons.2 ⟨fun hm => ?_, tail⟩
        obtain ⟨j, va, vb, hva, -, -, e⟩ := mem_columnChanges.1 hm
        have hj : j < as.length := (List.getElem?_eq_some_iff.1 hva).1
        have := congrArg (fun p : PixelChange => p.y.val) e
        simp only [rowOf, Fin.ofNat] at this
        omega

/-- The changes of different columns differ, so none occurs twice. -/
theorem nodup_changesFrom {x : Nat} {as bs : List (Vector Bool 32)} (h : x + as.length ≤ 64) :
    (changesFrom x as bs).Nodup := by
  induction as generalizing x bs with
  | nil => simp [changesFrom]
  | cons a as ih =>
    cases bs with
    | nil => simp [changesFrom]
    | cons b bs =>
      rw [List.length_cons] at h
      rw [changesFrom, List.nodup_append]
      refine ⟨nodup_columnChanges (by simp), ih (by omega), ?_⟩
      rintro p hp q hq rfl
      obtain ⟨_, _, _, _, _, _, e⟩ := mem_columnChanges.1 hp
      obtain ⟨i, ca, cb, hca, -, hq⟩ := mem_changesFrom.1 hq
      obtain ⟨_, _, _, _, _, _, e'⟩ := mem_columnChanges.1 hq
      have hi : i < as.length := (List.getElem?_eq_some_iff.1 hca).1
      have := congrArg (fun p : PixelChange => p.x.val) (e.symm.trans e')
      simp only [columnOf, Fin.ofNat] at this
      omega

/-- Every step exposes the changes between the framebuffers before and after it; an idle step's are none. -/
theorem step_changes {s t : State} (h : step s = .next t) : t.changes = Framebuffer.changes s.fb t.fb := by
  rcases step_idle_or_run h with ⟨r, rfl⟩ | ⟨-, u, rfl, -⟩
  · exact (Framebuffer.changes_self s.fb).symm
  · rfl

/-- Settles O13: the list a step exposes is the set of pixels that differ, column by column. -/
theorem changeListIsTheChangedPixels : Obligations.ChangeListIsTheChangedPixels := by
  intro s t h
  rw [step_changes h]
  exact ⟨nodup_changesFrom (by simp), fun _ => Framebuffer.mem_changes⟩

/-! ## The flag register -/

/-- A register an instruction neither names as its destination nor writes as a flag is unchanged. -/
theorem exec_other_reg {i : Instr} {s t : State} {k : Reg} (h : exec i s = .next t) (hk : k ∉ namedDestinations i)
    (hf : writesFlag i = true → k ≠ Reg.VF) : t.reg k = s.reg k := by
  cases exec_effect h with
  | regs w | rnd w | draw _ w => exact w.others k hk hf
  | fault | goto | ret | call | index | store | wait | delay | sound => rfl

/-- A flag written beside the destination is 0 or 1, unless the instruction faulted. -/
theorem exec_flag {i : Instr} {s t : State} (h : exec i s = .next t) (hw : writesFlag i = true)
    (hVF : Reg.VF ∉ namedDestinations i) (ht : t.fault = false) : t.reg Reg.VF = 0 ∨ t.reg Reg.VF = 1 := by
  cases exec_effect h with
  | regs w | rnd w | draw _ w => exact w.flag hw hVF
  | fault => cases ht
  | goto hf => exact absurd (hw.symm.trans hf) (by decide)
  | index writer => rcases writer with ⟨_, rfl⟩ | ⟨_, rfl | rfl⟩ <;> cases hw
  | store writer => rcases writer with ⟨_, rfl | rfl⟩ <;> cases hw
  | ret | call | wait | delay | sound => cases hw

/-- Settles O21: an instruction that writes no flag writes its destinations alone, and a flag is 0 or 1. -/
theorem vFIsWrittenAsFlagByFive : Obligations.VFIsWrittenAsFlagByFive := fun _ _ _ h hVF =>
  ⟨fun hw => exec_other_reg h hVF (fun hw' => absurd (hw'.symm.trans hw) (by decide)),
   fun hw _ ht => exec_flag h hw hVF ht⟩

/-! ## The timers -/

/-- The opcode at `pc` is the instruction that puts `V[x]` in a timer, and `v` is that `V[x]`. -/
def LoadsTimer (load : Reg → Instr) (s : State) (v : Byte) : Prop :=
  ∃ x, decodeWord s.fetch = .ok (load x) ∧ v = s.reg x

/-- Each timer has one instruction that writes it. -/
theorem exec_timers {i : Instr} {s t : State} (h : exec i s = .next t) :
    (t.DT ≠ s.DT → ∃ x, i = .ldDT x ∧ t.DT = s.reg x) ∧
    (t.ST ≠ s.ST → ∃ x, i = .ldST x ∧ t.ST = s.reg x) := by
  cases exec_effect h with
  | delay x => exact ⟨fun _ => ⟨x, rfl, rfl⟩, fun h => absurd rfl h⟩
  | sound x => exact ⟨fun h => absurd rfl h, fun _ => ⟨x, rfl, rfl⟩⟩
  | fault | goto | ret | call | regs | rnd | draw | index | store | wait =>
    exact ⟨fun h => absurd rfl h, fun h => absurd rfl h⟩

/-- A step that changes a timer runs the instruction that writes it. -/
theorem step_timers {s t : State} (h : step s = .next t) :
    (t.DT ≠ s.DT → LoadsTimer .ldDT s t.DT) ∧ (t.ST ≠ s.ST → LoadsTimer .ldST s t.ST) := by
  rcases step_idle_or_run h with ⟨r, rfl⟩ | ⟨-, u, rfl, ⟨i, hd, hu⟩ | rfl⟩
  · exact ⟨fun hne => absurd rfl hne, fun hne => absurd rfl hne⟩
  · obtain ⟨hDT, hST⟩ := exec_timers hu
    constructor
    · intro hne
      obtain ⟨x, rfl, hv⟩ := hDT hne
      exact ⟨x, hd, hv⟩
    · intro hne
      obtain ⟨x, rfl, hv⟩ := hST hne
      exact ⟨x, hd, hv⟩
  · exact ⟨fun hne => absurd rfl hne, fun hne => absurd rfl hne⟩

/-- A transition that changes a timer is the tick, or a step that runs the instruction that writes it. -/
theorem transition_timers {e : Stimulus} {s t : State} (h : transition e s = .next t) :
    (t.DT ≠ s.DT → e = .timerTick ∨ (e = .step ∧ LoadsTimer .ldDT s t.DT)) ∧
    (t.ST ≠ s.ST → e = .timerTick ∨ (e = .step ∧ LoadsTimer .ldST s t.ST)) := by
  rcases transition_cases h with ⟨rfl, hs⟩ | ⟨c, -, rfl⟩ | ⟨c, -, rfl⟩ | ⟨rfl, -⟩
  · exact ⟨fun hne => .inr ⟨rfl, (step_timers hs).1 hne⟩, fun hne => .inr ⟨rfl, (step_timers hs).2 hne⟩⟩
  · rw [s.keyPressed_rest c]
    exact ⟨fun hne => absurd rfl hne, fun hne => absurd rfl hne⟩
  · exact ⟨fun hne => absurd rfl hne, fun hne => absurd rfl hne⟩
  · exact ⟨fun _ => .inl rfl, fun _ => .inl rfl⟩

/-- Settles O24: `LD DT, Vx` alone writes the timer in a step, and a tick takes it down by 1 to 0. -/
theorem delayTimerMovesOnTickAlone : Obligations.DelayTimerMovesOnTickAlone := by
  refine ⟨fun _ _ _ h => (transition_timers h).1, fun x s => ⟨_, rfl, ?_⟩, fun _ _ => ⟨_, rfl, rfl⟩,
    fun s => ⟨_, rfl, fun _ => tickDown_toNat s.DT, fun h => ?_⟩⟩
  · exact State.reg_setReg_same s x s.DT
  · exact if_pos h

/-! ## What is read by no instruction, or by its readers alone -/

/-- The state with other values in the sound timer, the call stack and the key set. -/
def State.override (s : State) (st : Byte) (stk : Vector Word 16) (ks : Vector Bool 16) : State :=
  { s with ST := st, stack := stk, keys := ks }

/-- `s` and `s'` going to `t` and `t'`: these differ in the three overridden fields alone, and in each of them only if
`s` and `s'` did; the sound timer is as it was or as `t` has it. -/
structure GoAlike (s s' t t' : State) : Prop where
  rest : { t' with ST := t.ST, stack := t.stack, keys := t.keys } = t
  sound : s'.ST = s.ST → t'.ST = t.ST
  soundKept : t'.ST = s'.ST ∨ t'.ST = t.ST
  stack : s'.stack = s.stack → t'.stack = t.stack
  keys : s'.keys = s.keys → t'.keys = t.keys

section Override

variable (s : State) (st : Byte) (stk : Vector Word 16) (ks : Vector Bool 16)

theorem skipIf_override (c : Bool) : skipIf c (s.override st stk ks) = (skipIf c s).override st stk ks := by
  cases c <;> rfl

theorem loadEach_override (p : OobPolicy) (rs : List Reg) :
    loadEach p (s.override st stk ks) rs = (loadEach p s rs).override st stk ks := by
  induction rs generalizing s with
  | nil => rfl
  | cons r rs ih => exact ih (s.setReg r (s.readByte (landing p (s.dataAddr r.val))))

/-- The two answers of an instruction, from a state and from the state with other values in the three fields. -/
def ExecsAlike (i : Instr) : Prop :=
  ∃ t t', exec i s = .next t ∧ exec i (s.override st stk ks) = .next t' ∧ GoAlike s (s.override st stk ks) t t'

variable {s st stk ks}

/-- What reads and writes none of the three fields. -/
theorem GoAlike.override (t : State) (hST : t.ST = s.ST) (hstack : t.stack = s.stack) (hkeys : t.keys = s.keys) :
    GoAlike s (s.override st stk ks) t (t.override st stk ks) where
  rest := rfl
  sound h := h.trans hST.symm
  soundKept := .inl rfl
  stack h := h.trans hstack.symm
  keys h := h.trans hkeys.symm

/-- Skips on equal conditions go alike. -/
theorem ExecsAlike.skip {i : Instr} {c : Bool} (h : exec i s = .next (skipIf c s))
    (h' : exec i (s.override st stk ks) = .next (skipIf c (s.override st stk ks))) : ExecsAlike s st stk ks i := by
  rw [skipIf_override] at h'
  refine ⟨_, _, h, h', .override _ ?_ ?_ ?_⟩ <;> rw [skipIf_rest]

/-- Guarded accesses pass or fail the same range test. -/
theorem ExecsAlike.guarded {i : Instr} {p : OobPolicy} {last : Nat} {done : State}
    (h : exec i s = ifInRange p last s done)
    (h' : exec i (s.override st stk ks) = ifInRange p last (s.override st stk ks) (done.override st stk ks))
    (hST : done.ST = s.ST) (hstack : done.stack = s.stack) (hkeys : done.keys = s.keys) : ExecsAlike s st stk ks i := by
  unfold ifInRange at h h'
  cases hr : rangeTest p last with
  | ok _ =>
    rw [hr] at h h'
    exact ⟨_, _, h, h', .override _ hST hstack hkeys⟩
  | error f =>
    rw [hr] at h h'
    exact ⟨_, _, h, h', .override { s with fault := true } rfl rfl rfl⟩

end Override

/-- Every instruction goes alike, RET if the stacks and SKP and SKNP if the keys are the same. -/
theorem exec_alike (i : Instr) (s : State) (st : Byte) (stk : Vector Word 16) (ks : Vector Bool 16)
    (hret : i = .ret → stk = s.stack) (hkey : (∃ x, i = .skp x ∨ i = .sknp x) → ks = s.keys) :
    ExecsAlike s st stk ks i := by
  cases i with
  | cls | sys | jp | jpV0 | ldByte | addByte | ldReg | orReg | andReg | xorReg | addReg | sub | subn | shr | shl | rnd
  | ldVxDT | ldVxK | ldI | addI | ldF | ldDT => exact ⟨_, _, rfl, rfl, .override _ rfl rfl rfl⟩
  | seByte | sneByte | seReg | sneReg => exact .skip rfl rfl
  | skp x =>
    cases hkey ⟨x, .inl rfl⟩
    exact .skip rfl rfl
  | sknp x =>
    cases hkey ⟨x, .inr rfl⟩
    exact .skip rfl rfl
  | ret =>
    cases hret rfl
    exact ⟨_, _, rfl, rfl, .override _ rfl rfl rfl⟩
  | call nnn =>
    exact ⟨_, _, rfl, rfl, rfl, id, .inl rfl, fun h => congrArg (·.set s.sp.toNat s.nextpc s.sp.isLt) h, id⟩
  | ldST x => exact ⟨_, _, rfl, rfl, rfl, fun _ => rfl, .inr rfl, id, id⟩
  | drw x y n =>
    by_cases hn : n.val = 0
    · exact ⟨_, _, if_pos hn, if_pos hn, .override (drawn .fault x y n s) rfl rfl rfl⟩
    · exact .guarded (done := drawn .fault x y n s) (if_neg hn) (if_neg hn) rfl rfl rfl
  | ldB | storeRegs => exact .guarded rfl rfl rfl rfl rfl
  | loadRegs x =>
    obtain ⟨V, hV⟩ := (loadEach_spec s (regsUpTo x)).1
    refine .guarded (done := (loadEach .fault s (regsUpTo x)).advance) rfl ?_ ?_ ?_ ?_
    · exact congrArg (fun u : State => ifInRange .fault _ (s.override st stk ks) u.advance)
        (loadEach_override s st stk ks .fault (regsUpTo x))
    all_goals rw [hV]; rfl

/-- Two answers that differ in the sound timer alone, the second's being `v` or the first's. -/
def DifferInSound (v : Byte) (t t' : State) : Prop := { t' with ST := t.ST } = t ∧ (t'.ST = v ∨ t'.ST = t.ST)

/-- No instruction reads the sound timer. -/
theorem exec_sound (i : Instr) (s : State) (v : Byte) :
    ∃ t t', exec i s = .next t ∧ exec i { s with ST := v } = .next t' ∧ DifferInSound v t t' := by
  obtain ⟨t, t', ht, ht', alike⟩ := exec_alike i s v s.stack s.keys (fun _ => rfl) (fun _ => rfl)
  have rest := alike.rest
  rw [← alike.stack rfl, ← alike.keys rfl] at rest
  exact ⟨t, t', ht, ht', rest, alike.soundKept⟩

/-- A running machine at a word with a row takes the instruction's answer. -/
theorem step_of_exec {s u : State} {i : Instr} (hr : Running s) (hd : decodeWord s.fetch = .ok i)
    (hu : exec i s = .next u) : step s = .next (u.finish s.fb) := by
  rw [step_running hr, runOpcode, hd]
  simp only [hu, finishOutcome]

/-- A running machine at a word without a row advances. -/
theorem step_of_illegal {s : State} {e : Reject} (hr : Running s) (hd : decodeWord s.fetch = .error e) :
    step s = .next (s.advance.finish s.fb) := by
  rw [step_running hr, runOpcode, hd]
  rfl

/-- No step reads the sound timer: the fetch and the three tests before it do not, and no instruction does. -/
theorem step_sound (s : State) (v : Byte) :
    ∃ t t', step s = .next t ∧ step { s with ST := v } = .next t' ∧ DifferInSound v t t' := by
  by_cases hr : Running s
  · have hr' : Running { s with ST := v } := ⟨hr.notFaulted, hr.inMemory, hr.notHeld⟩
    cases hd : decodeWord s.fetch with
    | ok i =>
      obtain ⟨u, u', hu, hu', rest, sound⟩ := exec_sound i s v
      exact ⟨_, _, step_of_exec hr hd hu, step_of_exec hr' hd hu', congrArg (State.finish s.fb) rest, sound⟩
    | error e => exact ⟨_, _, step_of_illegal hr hd, step_of_illegal hr' hd, rfl, .inl rfl⟩
  · have hr' : ¬ Running { s with ST := v } := fun r => hr ⟨r.notFaulted, r.inMemory, r.notHeld⟩
    exact ⟨_, _, step_not_running hr, step_not_running hr', rfl, .inl rfl⟩

/-- Settles O25: no step reads the timer, `LD ST, Vx` alone writes it in a step, and a tick takes it down. -/
theorem soundTimerIsNeverRead : Obligations.SoundTimerIsNeverRead :=
  ⟨step_sound, fun _ _ => ⟨_, rfl, rfl⟩, fun _ _ _ h => (transition_timers h).2,
    fun s => ⟨_, rfl, fun _ => tickDown_toNat s.ST, fun h => if_pos h⟩⟩

/-- Settles O26: every instruction goes alike from two states whose stacks, or keys, alone differ. -/
theorem stackAndKeysReachOnlyTheirReaders : Obligations.StackAndKeysReachOnlyTheirReaders := by
  intro i s
  constructor
  · intro hi stk
    obtain ⟨t, t', ht, ht', alike⟩ := exec_alike i s s.ST stk s.keys (fun h => absurd h hi) (fun _ => rfl)
    have rest := alike.rest
    rw [← alike.sound rfl, ← alike.keys rfl] at rest
    exact ⟨t, t', ht, ht', rest⟩
  · intro hi ks
    obtain ⟨t, t', ht, ht', alike⟩ := exec_alike i s s.ST s.stack ks (fun _ => rfl)
      (fun ⟨x, hx⟩ => absurd hx (not_or.2 (hi x)))
    have rest := alike.rest
    rw [← alike.sound rfl, ← alike.stack rfl] at rest
    exact ⟨t, t', ht, ht', rest⟩

end Sys2Proof.Machine

/-! Proofs of the memory family (20_memory.md): the byte order of a fetch, the accesses that fault, and code that a store
writes just before it is fetched. -/

namespace Sys2Proof.Machine

/-! ## The fetch -/

/-- The high byte counts 256 times (20_memory.md R53). -/
theorem toNat_wordOfBytes (hi lo : Byte) : (wordOfBytes hi lo).toNat = hi.toNat * 256 + lo.toNat := by
  rw [wordOfBytes, BitVec.toNat_append, ← Nat.shiftLeft_add_eq_or_of_lt lo.isLt, Nat.shiftLeft_eq]

/-- Settles O7: the fetched word is its two bytes joined, which are read back from it. -/
theorem fetchIsBigEndian : Obligations.FetchIsBigEndian := fun _ =>
  ⟨toNat_wordOfBytes _ _, hiByte_wordOfBytes _ _, loByte_wordOfBytes _ _⟩

/-- What is known of every byte of memory is known of the two that a fetch reads. -/
theorem State.fetch_of_readByte {t : State} {after : Nat → Byte} (h : ∀ a, t.readByte a = after a) :
    t.fetch = wordOfBytes (after t.pc.toNat) (after (t.pc.toNat + 1)) := by
  rw [fetch, readWord, h, h]

/-! ## The accesses that fault -/

/-- An instruction is done, leaving the fault bit as it was; if it accesses memory through `I`, only when the last address
of the access passes the range test (20_memory.md R58). -/
theorem exec_guarded (i : Instr) (s : State) :
    ∃ done, exec i s = (lastOffset i).elim (.next done) (fun m => ifInRange .fault (s.dataAddr m) s done) ∧
      done.fault = s.fault := by
  cases i with
  | cls | ret | sys | jp | call | ldByte | addByte | ldReg | orReg | andReg | xorReg | addReg | sub | shr | subn | shl
  | ldI | jpV0 | rnd | ldVxDT | ldVxK | ldDT | ldST | addI | ldF => exact ⟨_, rfl, rfl⟩
  | seByte | sneByte | seReg | sneReg | skp | sknp => exact ⟨_, rfl, by rw [skipIf_rest]⟩
  | ldB | storeRegs => exact ⟨_, rfl, rfl⟩
  | loadRegs x =>
    obtain ⟨V, hV⟩ := (loadEach_spec s (regsUpTo x)).1
    exact ⟨(loadEach .fault s (regsUpTo x)).advance, rfl, by rw [hV]; rfl⟩
  | drw x y n =>
    refine ⟨drawn .fault x y n s, ?_, rfl⟩
    by_cases hn : n.val = 0
    · rw [lastOffset, if_pos hn]
      exact if_pos hn
    · rw [lastOffset, if_neg hn]
      exact if_neg hn

/-- Settles O15: past 0xFFF the range test raises the fault, and elsewhere the instruction is done. -/
theorem outOfRangeAccessRaisesTheFault : Obligations.OutOfRangeAccessRaisesTheFault := by
  constructor
  · intro i m s hm hout
    obtain ⟨done, he, -⟩ := exec_guarded i s
    rw [he, hm]
    exact ifInRange_raises hout s done
  · intro i s t hin ht
    obtain ⟨done, he, hf⟩ := exec_guarded i s
    have hdone : exec i s = .next done := by
      cases hm : lastOffset i with
      | none => rw [he, hm]; rfl
      | some m => rw [he, hm]; exact ifInRange_ok (hin m hm) _ s done
    rw [hdone] at ht
    cases ht
    exact hf

/-! ## Stored code -/

/-- What every byte of memory reads as after the registers 0 to x were stored from `a` on. -/
theorem read_storeFrom_regs (s : State) (x : Reg) (a c : Nat) (h : s.mem.wf = true) (ha : a + x.val ≤ 0xFFF) :
    (storeFrom .fault a s.mem ((regsUpTo x).map s.reg)).read c =
      if a ≤ c ∧ c ≤ a + x.val then s.reg (Fin.ofNat 16 (c - a)) else s.readByte c := by
  obtain ⟨stored, other⟩ := read_store_regs s x a h ha
  by_cases hc : a ≤ c ∧ c ≤ a + x.val
  · have hk : (Fin.ofNat 16 (c - a)).val = c - a := Nat.mod_eq_of_lt (by omega)
    have hkx : Fin.ofNat 16 (c - a) ≤ x := Fin.le_def.2 (by omega)
    have hac : a + (Fin.ofNat 16 (c - a)).val = c := by omega
    rw [if_pos hc, ← stored _ hkx, hac]
  · rw [if_neg hc, other c (by omega)]

/-- What every byte of memory reads as after three bytes were stored from `a` on. -/
theorem read_storeFrom_three {m : Memory} (a c : Nat) (u v w : Byte) (h : m.wf = true) (ha : a + 2 ≤ 0xFFF) :
    (storeFrom .fault a m [u, v, w]).read c =
      if c = a then u else if c = a + 1 then v else if c = a + 2 then w else m.read c := by
  rw [storeFrom_fault, Memory.read_writeBytes a _ h (by simp only [List.length_cons, List.length_nil]; omega)]
  by_cases h0 : c = a
  · simp [h0]
  by_cases h1 : c = a + 1
  · simp [h1]
  by_cases h2 : c = a + 2
  · simp [h2]
  rw [if_neg (by simp only [List.length_cons, List.length_nil]; omega), if_neg h0, if_neg h1, if_neg h2]

/-- `LD [I], Vx` in memory stores the registers 0 to x and advances. -/
theorem exec_storeRegs_in_memory {x : Reg} {s : State} (h : s.dataAddr x.val ≤ 0xFFF) : exec (.storeRegs x) s =
    .next ({ s with mem := storeFrom .fault (s.dataAddr 0) s.mem ((regsUpTo x).map s.reg) }).advance :=
  ifInRange_ok h .fault s _

/-- `LD B, Vx` in memory stores the digits of `V[x]` and advances. -/
theorem exec_ldB_in_memory {x : Reg} {s : State} (h : s.dataAddr 2 ≤ 0xFFF) : exec (.ldB x) s =
    .next ({ s with mem := storeFrom .fault (s.dataAddr 0) s.mem (decimalDigits (s.reg x)) }).advance :=
  ifInRange_ok h .fault s _

/-- Settles O48: both stores are read back at every address, so at the two that are fetched. -/
theorem storedCodeIsFetchedNext : Obligations.StoredCodeIsFetchedNext := by
  intro x s hwf
  constructor
  · intro hin
    refine ⟨_, exec_storeRegs_in_memory hin, ?_⟩
    intro after
    refine State.fetch_of_readByte (after := after) fun c => ?_
    exact read_storeFrom_regs s x (s.dataAddr 0) c hwf hin
  · intro hin
    refine ⟨_, exec_ldB_in_memory hin, ?_⟩
    intro after
    refine State.fetch_of_readByte (after := after) fun c => ?_
    exact read_storeFrom_three (s.dataAddr 0) c _ _ _ hwf hin

end Sys2Proof.Machine

/-! Proofs of the encoding family (30_encoding.md): the match rule of the dispatch table, the first match, and the step
that runs what the bytes at `pc` decode to. -/

namespace Sys2Proof.Machine

/-! ## The match rule -/

/-- A pattern that is zero outside a mask is all kept by it. -/
theorem and_mask_of_zero_outside {p m : Word} (h : p &&& ~~~m = 0#16) : p &&& m = p := by
  calc p &&& m = p &&& m ||| p &&& ~~~m := by rw [h, BitVec.or_zero]
    _ = p &&& (m ||| ~~~m) := BitVec.and_or_distrib_left.symm
    _ = p := by rw [BitVec.or_not_self, BitVec.and_allOnes]

/-- Masking distributes over exclusive-OR, as it does bit by bit. -/
theorem xor_and_distrib_right (a b m : Word) : (a ^^^ b) &&& m = (a &&& m) ^^^ (b &&& m) := by
  ext i hi
  simp only [BitVec.getElem_and, BitVec.getElem_xor, Bool.and_xor_distrib_right]

/-- Exclusive-OR under a mask that keeps the whole pattern is zero exactly where the masked word is the pattern. -/
theorem xor_and_eq_zero_iff {op p m : Word} (h : p &&& ~~~m = 0#16) :
    (op ^^^ p) &&& m = 0#16 ↔ op &&& m = p := by
  rw [xor_and_distrib_right, and_mask_of_zero_outside h, BitVec.xor_eq_zero_iff]

/-- A row matches by the rule of 30_encoding.md R74. -/
theorem Row.matches_iff_xor (r : Row) (op : Word) : r.matches op = true ↔ (op ^^^ r.pattern) &&& r.mask = 0#16 :=
  beq_iff_eq

/-- No row's pattern has a bit that the row's mask leaves free (30_encoding.md R77). -/
theorem pattern_zero_outside_mask : ∀ r ∈ table, r.pattern &&& ~~~r.mask = 0#16 := by decide

/-- A row of the table matches by equality under its mask. -/
theorem matches_iff_masked_eq {r : Row} (h : r ∈ table) (op : Word) :
    r.matches op = true ↔ op &&& r.mask = r.pattern :=
  (Row.matches_iff_xor r op).trans (xor_and_eq_zero_iff (pattern_zero_outside_mask r h))

/-! ## The first match and the disassembler -/

/-- The row found is the one that matches with none before it matching (30_encoding.md R75). -/
theorem findRow_of_first {before after : List Row} {r : Row} {op : Word} (ht : table = before ++ r :: after)
    (hb : ∀ q ∈ before, q.matches op = false) (hr : r.matches op = true) : findRow op = some r :=
  List.find?_eq_some_iff_append.2 ⟨hr, before, after, ht, fun q hq => by rw [hb q hq]; rfl⟩

/-- The row found builds the instruction. -/
theorem decodeWord_of_findRow {op : Word} {r : Row} (h : findRow op = some r) :
    decodeWord op = .ok (r.form.build op) := by
  rw [decodeWord, h]

/-- The disassembler names what the decoder decodes (30_encoding.md R91). -/
theorem opcodeText_isSome_iff (op : Word) : (∃ text, opcodeText op = some text) ↔ ∃ i, decodeWord op = .ok i := by
  rw [opcodeText]
  cases decodeWord op <;> simp

/-- Settles O3: the match rule row by row, and the first row that matches is the one found. -/
theorem rowMatchIsMaskedEquality : Obligations.RowMatchIsMaskedEquality := by
  refine ⟨fun before r after ht => ?_, opcodeText_isSome_iff⟩
  have hr : r ∈ table := ht ▸ List.mem_append_cons_self
  exact ⟨pattern_zero_outside_mask r hr, Row.matches_iff_xor r, matches_iff_masked_eq hr,
    fun _ hb hm => decodeWord_of_findRow (findRow_of_first ht hb hm)⟩

/-! ## The step -/

/-- Two bytes decode as the word they make, and the bytes after them are left. -/
theorem decode_eq_ok_iff {hi lo : Byte} {rest rest' : List Byte} {i : Instr} :
    decode (hi :: lo :: rest) = .ok (i, rest') ↔ decodeWord (wordOfBytes hi lo) = .ok i ∧ rest = rest' := by
  rw [decode]
  cases decodeWord (wordOfBytes hi lo) <;> simp

/-- Settles O8: the fetched word is the one the two bytes make, and every instruction answers a next state. -/
theorem stepRunsTheDecodedInstruction : Obligations.StepRunsTheDecodedInstruction := by
  intro s i hr hd
  have hw : decodeWord s.fetch = .ok i := (decode_eq_ok_iff.1 hd).1
  obtain ⟨t, ht, -⟩ := exec_spec i s
  exact ⟨t, ht, step_of_exec hr hw ht⟩

end Sys2Proof.Machine

/-! Proofs of the control flow family (40_control_flow.md): the rows a top nibble leaves to choose from, the words of
the formats as encodings, the jump and the skips. -/

namespace Sys2Proof.Machine

/-! ## Decoding by the top nibble -/

/-- A field that a row's mask keeps whole reads in every matching word as in the row's pattern. -/
theorem extractLsb'_of_matches {r : Row} {op : Word} {start len : Nat} (hr : r ∈ table) (h : r.matches op = true)
    (hm : r.mask.extractLsb' start len = BitVec.allOnes len) :
    op.extractLsb' start len = r.pattern.extractLsb' start len := by
  rw [← (matches_iff_masked_eq hr op).1 h, BitVec.extractLsb'_and, hm, BitVec.and_allOnes]

/-- Every row fixes the top nibble (30_encoding.md R77). -/
theorem fieldTop_of_matches {r : Row} {op : Word} (hr : r ∈ table) (h : r.matches op = true) :
    fieldTop r.pattern = fieldTop op :=
  have masked : ∀ r ∈ table, r.mask.extractLsb' 12 4 = BitVec.allOnes 4 := by decide
  (extractLsb'_of_matches hr h (masked r hr)).symm

/-- The rows of the table whose words begin with the nibble `top`, in the table's order. -/
def rowsWithTop (top : BitVec 4) : List Row := table.filter (fieldTop ·.pattern == top)

/-- The row found is the first match among the rows with the word's top nibble. -/
theorem findRow_eq_find_rowsWithTop (op : Word) :
    findRow op = (rowsWithTop (fieldTop op)).find? (Row.matches · op) := by
  rw [findRow, rowsWithTop, List.find?_filter]
  refine List.find?_congr fun r hr => ?_
  cases h : r.matches op with
  | false => simp
  | true => simp [fieldTop_of_matches hr h]

/-- Where one row has the word's top nibble, the word decodes by that row or not at all. -/
theorem decodeWord_of_single_row {op : Word} {r : Row} (h : rowsWithTop (fieldTop op) = [r]) :
    decodeWord op = if r.matches op = true then .ok (r.form.build op) else .error (.illegalOpcode op) := by
  rw [decodeWord, findRow_eq_find_rowsWithTop, h, List.find?_singleton]
  cases r.matches op <;> rfl

/-- The encoding of an instruction decodes to it where one row has the word's top nibble. -/
theorem decodeWord_of_eq_encode {op : Word} {top : BitVec 4} {i : Instr} {r : Row} (ht : fieldTop op = top)
    (h : rowsWithTop top = [r]) (hop : op = encode i) (own : Laws.MatchesOwnRow.Statement i) :
    decodeWord op = .ok i := by
  subst ht hop
  obtain ⟨q, hq, hm, hb⟩ := own
  have hqr : q ∈ rowsWithTop (fieldTop (encode i)) :=
    List.mem_filter.2 ⟨hq, beq_iff_eq.2 (fieldTop_of_matches hq hm)⟩
  rw [h, List.mem_singleton] at hqr
  rw [decodeWord_of_single_row h, ← hqr, if_pos hm, hb]

/-- A word is illegal where one row has its top nibble and that row wants another low nibble. -/
theorem decodeWord_illegal_of_low_nibble {op : Word} {top : BitVec 4} {r : Row} (ht : fieldTop op = top)
    (h : rowsWithTop top = [r]) (hm : r.mask.extractLsb' 0 4 = BitVec.allOnes 4)
    (hn : op.extractLsb' 0 4 ≠ r.pattern.extractLsb' 0 4) : decodeWord op = .error (.illegalOpcode op) := by
  subst ht
  have hr : r ∈ table := List.mem_of_mem_filter (h ▸ List.mem_singleton_self r : r ∈ rowsWithTop (fieldTop op))
  rw [decodeWord_of_single_row h, if_neg fun hmatch => hn (extractLsb'_of_matches hr hmatch hm)]

/-! ## The words of the formats (30_encoding.md R71) -/

section Words

variable (top : BitVec 4) (x y : Reg)

theorem fieldTop_append_nnn (nnn : Addr) : fieldTop (top ++ nnn) = top := BitVec.extractLsb'_append_eq_left

theorem fieldTop_append_xkk (kk : Byte) : fieldTop (top ++ nibbleBits x ++ kk) = top := by
  rw [fieldTop, BitVec.extractLsb'_append_eq_of_le (by decide)]
  exact BitVec.extractLsb'_append_eq_left

theorem fieldTop_append_xyn (n : BitVec 4) : fieldTop (top ++ nibbleBits x ++ nibbleBits y ++ n) = top := by
  rw [fieldTop, BitVec.extractLsb'_append_eq_of_le (by decide), BitVec.extractLsb'_append_eq_of_le (by decide)]
  exact BitVec.extractLsb'_append_eq_left

/-- Format NNN: the nibble and the operand, each put in its place. -/
theorem append_nnn (nnn : Addr) : top ++ nnn = (top ++ 0#12) ||| zext16 nnn := by
  apply BitVec.eq_of_getLsbD_eq
  intro i hi
  simp only [BitVec.getLsbD_or, BitVec.getLsbD_append, BitVec.getLsbD_setWidth]
  interval_cases i <;> simp

/-- Format XKK. -/
theorem append_xkk (kk : Byte) : top ++ nibbleBits x ++ kk = (top ++ 0#12) ||| placeX x ||| zext16 kk := by
  apply BitVec.eq_of_getLsbD_eq
  intro i hi
  simp only [BitVec.getLsbD_or, BitVec.getLsbD_append, BitVec.getLsbD_setWidth, BitVec.getLsbD_shiftLeft, placeX]
  interval_cases i <;> simp

/-- Format XY with the low nibble 0. -/
theorem append_xy : top ++ nibbleBits x ++ nibbleBits y ++ 0#4 = (top ++ 0#12) ||| placeX x ||| placeY y := by
  apply BitVec.eq_of_getLsbD_eq
  intro i hi
  simp only [BitVec.getLsbD_or, BitVec.getLsbD_append, BitVec.getLsbD_setWidth, BitVec.getLsbD_shiftLeft, placeX,
    placeY]
  interval_cases i <;> simp

/-- Format XY with a low nibble that its one row does not have. -/
theorem decodeWord_append_xyn_illegal {n : BitVec 4} {r : Row} (h : rowsWithTop top = [r])
    (hm : r.mask.extractLsb' 0 4 = BitVec.allOnes 4) (hn : n ≠ r.pattern.extractLsb' 0 4) :
    decodeWord (top ++ nibbleBits x ++ nibbleBits y ++ n) =
      .error (.illegalOpcode (top ++ nibbleBits x ++ nibbleBits y ++ n)) := by
  refine decodeWord_illegal_of_low_nibble (fieldTop_append_xyn top x y n) h hm ?_
  rw [BitVec.extractLsb'_append_eq_right]
  exact hn

end Words

/-! The top nibbles with one row each. -/

theorem rowsWithTop_one : rowsWithTop 0x1 = [⟨"JP_addr", 0x1000, 0xF000, .nnn .jp⟩] := rfl

theorem rowsWithTop_four : rowsWithTop 0x4 = [⟨"SNE_Vx__byte", 0x4000, 0xF000, .xkk .sneByte⟩] := rfl

theorem rowsWithTop_five : rowsWithTop 0x5 = [⟨"SE_Vx__Vy", 0x5000, 0xF00F, .xy .seReg⟩] := rfl

theorem rowsWithTop_nine : rowsWithTop 0x9 = [⟨"SNE_Vx__Vy", 0x9000, 0xF00F, .xy .sneReg⟩] := rfl

/-! ## The jump -/

/-- A jump changes nothing but `pc` (40_control_flow.md R100). -/
theorem OnlyPc.jump (s : State) (target : Word) : OnlyPc s (s.jump target) := ⟨rfl, fun _ => rfl⟩

/-- Widening an address keeps its value (00_scope.md R7). -/
theorem toNat_zext16_addr (nnn : Addr) : (zext16 nnn).toNat = nnn.toNat := BitVec.toNat_setWidth_of_le (by decide)

/-- A jump to where it stands leaves the state as it is. -/
theorem jump_zext16_self {s : State} {nnn : Addr} (h : s.pc.toNat = nnn.toNat) : s.jump (zext16 nnn) = s := by
  have hpc : zext16 nnn = s.pc := BitVec.eq_of_toNat_eq ((toNat_zext16_addr nnn).trans h.symm)
  rw [hpc]
  rfl

/-- A step whose instruction drew nothing and raised nothing ends with an empty change list and true. -/
theorem State.finish_self {s : State} (h : s.fault = false) :
    s.finish s.fb = { s with changes := [], stepResult := true } := by
  rw [finish, Framebuffer.changes_self, h]
  rfl

/-- Settles O29: one row has the top nibble 1, and a jump to the machine's own `pc` answers the state itself. -/
theorem jpGoesToTheAddress : Obligations.JpGoesToTheAddress := by
  intro nnn s
  refine ⟨?_, ⟨s.jump (zext16 nnn), rfl, toNat_zext16_addr nnn, .jump s _, ?_, jump_zext16_self⟩, ?_⟩
  · exact decodeWord_of_eq_encode (fieldTop_append_nnn ..) rowsWithTop_one (append_nnn ..) (Laws.MatchesOwnRow.jp ..)
  · rintro rfl
    exact (by decide : 0xFFE < (zext16 0xFFF#12).toNat)
  · intro hr hd hpc
    have he : exec (.jp nnn) s = .next s := congrArg Host.Outcome.next (jump_zext16_self hpc)
    rw [step_of_exec hr hd he, State.finish_self hr.notFaulted]

/-! ## The skips -/

/-- An instruction that skips on a condition moves `pc` alone, by 4 or by 2. -/
theorem exec_skip {i : Instr} {s : State} {c : Bool} {P : Prop} [Decidable P] (he : exec i s = .next (skipIf c s))
    (hc : c = true ↔ P) : ∃ t, exec i s = .next t ∧ OnlyPc s t ∧ t.pc = if P then s.pc + 4 else s.pc + 2 := by
  refine ⟨_, he, ⟨skipIf_rest c s, fun a => ?_⟩, (skipIf_pc c s).trans (if_congr hc rfl rfl)⟩
  rw [skipIf_rest]
  rfl

/-- Bytes are compared as numbers. -/
theorem byte_beq_iff (a b : Byte) : (a == b) = true ↔ a.toNat = b.toNat := beq_iff_eq.trans BitVec.toNat_inj.symm

theorem byte_bne_iff (a b : Byte) : (a != b) = true ↔ a.toNat ≠ b.toNat :=
  bne_iff_ne.trans BitVec.toNat_ne_iff_ne.symm

/-- Settles O34: one row has the top nibble 4, and the skip is on the two bytes differing. -/
theorem sneByteSkipsWhenDifferent : Obligations.SneByteSkipsWhenDifferent := fun x kk s =>
  ⟨decodeWord_of_eq_encode (fieldTop_append_xkk ..) rowsWithTop_four (append_xkk ..) (Laws.MatchesOwnRow.sneByte ..),
   exec_skip rfl (byte_bne_iff (s.reg x) kk)⟩

/-- Settles O35: the tops 5 and 9 have one row each, which fixes the low nibble; the skips compare the registers. -/
theorem registerSkips : Obligations.RegisterSkips := by
  intro x y n s
  refine ⟨?_, ?_, fun hn => ⟨?_, ?_⟩, exec_skip rfl (byte_beq_iff _ _), exec_skip rfl (byte_bne_iff _ _)⟩
  · exact decodeWord_of_eq_encode (fieldTop_append_xyn ..) rowsWithTop_five (append_xy ..) (Laws.MatchesOwnRow.seReg ..)
  · exact decodeWord_of_eq_encode (fieldTop_append_xyn ..) rowsWithTop_nine (append_xy ..) (Laws.MatchesOwnRow.sneReg ..)
  · exact decodeWord_append_xyn_illegal _ x y rowsWithTop_five (by decide) hn
  · exact decodeWord_append_xyn_illegal _ x y rowsWithTop_nine (by decide) hn

end Sys2Proof.Machine

/-! Proofs of the load and arithmetic family (41_load_arith.md): the write of one register, and the sum with a byte. -/

namespace Sys2Proof.Machine

/-- The one row with the top nibble 7 (30_encoding.md R77). -/
theorem rowsWithTop_seven : rowsWithTop 0x7 = [⟨"ADD_Vx__byte", 0x7000, 0xF000, .xkk .addByte⟩] := rfl

/-- Writing register `x` and moving on changes nothing but that register and `pc` (10_state.md R22). -/
theorem OnlyRegPc.setReg_advance (x : Reg) (s : State) (v : Byte) : OnlyRegPc x s (s.setReg x v).advance where
  rest := rfl
  regs _ hk := State.reg_setReg_ne s v hk
  bytes _ := rfl

/-- An instruction that writes one register and moves on. -/
theorem exec_setReg {i : Instr} {x : Reg} {s : State} {v : Byte} (he : exec i s = .next (s.setReg x v).advance) :
    ∃ t, exec i s = .next t ∧ t.reg x = v ∧ t.pc = s.pc + 2 ∧ OnlyRegPc x s t :=
  ⟨_, he, State.reg_setReg_same s x v, rfl, .setReg_advance x s v⟩

/-- Settles O37: one row has the top nibble 7, and the register written holds the sum of two bytes as a byte. -/
theorem addByteWrapsModulo256 : Obligations.AddByteWrapsModulo256 := by
  intro x kk s
  constructor
  · exact decodeWord_of_eq_encode (fieldTop_append_xkk ..) rowsWithTop_seven (append_xkk ..)
      (Laws.MatchesOwnRow.addByte ..)
  · obtain ⟨t, ht, hx, hpc, hframe⟩ : ∃ t, exec (.addByte x kk) s = .next t ∧ t.reg x = s.reg x + kk ∧
        t.pc = s.pc + 2 ∧ OnlyRegPc x s t := exec_setReg rfl
    exact ⟨t, ht, hx ▸ BitVec.toNat_add (s.reg x) kk, hpc, hframe⟩

end Sys2Proof.Machine

/-! Proofs of the exceptions family (60_exceptions.md): an illegal opcode, the halt, the answers of `exec` and `step`, and
the precise fault. -/

namespace Sys2Proof.Machine

/-! ## Illegal opcodes -/

/-- A word that no row matches decodes to nothing (30_encoding.md R79). -/
theorem decodeWord_of_no_match {op : Word} (h : ∀ r ∈ table, r.matches op = false) :
    decodeWord op = .error (.illegalOpcode op) := by
  have hf : findRow op = none := List.find?_eq_none.2 fun r hr => by simp [h r hr]
  rw [decodeWord, hf]

/-- Settles O9: the word decodes to nothing, and advancing draws nothing and raises nothing. -/
theorem illegalOpcodeOnlyAdvances : Obligations.IllegalOpcodeOnlyAdvances := by
  intro s hr hm
  have hfinish : s.advance.finish s.fb = { s.advance with changes := [], stepResult := true } :=
    State.finish_self (s := s.advance) hr.notFaulted
  rw [step_of_illegal hr (decodeWord_of_no_match hm), hfinish]
  rfl

/-! ## The answers of `exec` and `step` -/

/-- Every step answers a next state: an idle one, an instruction's, or an illegal opcode's advance. -/
theorem step_answers_next (s : State) : ∃ t, step s = .next t := by
  by_cases hr : Running s
  · cases hd : decodeWord s.fetch with
    | ok i =>
      obtain ⟨u, hu, -⟩ := exec_spec i s
      exact ⟨_, step_of_exec hr hd hu⟩
    | error e => exact ⟨_, step_of_illegal hr hd⟩
  · exact ⟨_, step_not_running hr⟩

/-- Settles O12: every instruction answers by one of its effects, and every step answers. -/
theorem everyInstructionAndStepAnswersNext : Obligations.EveryInstructionAndStepAnswersNext :=
  ⟨fun i s => (exec_spec i s).imp fun _ h => h.1, step_answers_next⟩

/-! ## The halt -/

/-- A step that ran an opcode is false only with the fault (30_encoding.md R76 step 10). -/
theorem State.fault_of_finish_false {before : Framebuffer} {u : State} (h : (u.finish before).stepResult = false) :
    (u.finish before).fault = true := by
  simpa using h

/-- A step answers false only from a halted machine or into a faulted one (60_exceptions.md R174). -/
theorem faulted_or_halted_of_step_false {s t : State} (h : step s = .next t) (hf : t.stepResult = false) :
    Faulted t ∨ Halted s := by
  rcases step_cases h with ⟨hs, rfl⟩ | ⟨-, hp, -⟩ | ⟨-, -, -, rfl⟩ | ⟨-, i, u, -, -, rfl⟩ | ⟨-, e, -, rfl⟩
  · exact .inl hs
  · exact .inr hp
  · cases hf
  · exact .inl (State.fault_of_finish_false hf)
  · exact .inl (State.fault_of_finish_false hf)

/-- A `pc` in memory is the widening of its low 12 bits. -/
theorem zext16_setWidth_of_le {pc : Word} (h : pc.toNat ≤ 0xFFE) : zext16 (pc.setWidth 12) = pc :=
  BitVec.eq_of_toNat_eq (by simp only [zext16, BitVec.toNat_setWidth]; omega)

/-- The word of a self-jump is a `JP` with the low 12 bits of `pc` (70_reset_and_hazards.md R193). -/
theorem AtSelfJump.fetch_eq {s : State} (h : AtSelfJump s) : s.fetch = 0x1#4 ++ s.pc.setWidth 12 := by
  obtain ⟨hp, hw⟩ := h
  rw [append_nnn, zext16_setWidth_of_le hp]
  exact hw

/-- A running machine at a self-jump answers its own state: the jump of O29 to the machine's own `pc`. -/
theorem step_self_jump {s : State} (hr : Running s) (h : AtSelfJump s) :
    step s = .next { s with changes := [], stepResult := true } := by
  obtain ⟨hdecode, -, hself⟩ := jpGoesToTheAddress (s.pc.setWidth 12) s
  refine hself hr (h.fetch_eq ▸ hdecode) ?_
  rw [← toNat_zext16_addr, zext16_setWidth_of_le hr.inMemory]

/-- Settles O10: the three clauses are the stopped machine, the ways a step answers false, and the self-jump. -/
theorem haltedStepChangesNothing : Obligations.HaltedStepChangesNothing :=
  ⟨fun _ h => step_stopped (.inr h), fun _ _ => faulted_or_halted_of_step_false, fun _ => step_self_jump⟩

/-! ## The precise fault -/

/-- An instruction that raises the fault does nothing else, and every other keeps the fault bit (60_exceptions.md R181). -/
theorem Effect.raises_or_keeps_fault {i : Instr} {s t : State} (e : Effect s i t) :
    t = { s with fault := true } ∨ t.fault = s.fault := by
  cases e with
  | fault => exact .inl rfl
  | goto | ret | call | regs | rnd | draw | index | store | wait | delay | sound => exact .inr rfl

/-- Settles O14: by the effects of the instructions, the stopped machine, and what a host event may change. -/
theorem faultsArePrecise : Obligations.FaultsArePrecise := by
  refine ⟨fun i s t h hs ht => ?_, fun s h => step_stopped (.inl h), fun e s t he h => ?_⟩
  · rcases (exec_effect h).raises_or_keeps_fault with raised | kept
    · exact raised
    · rw [kept, hs] at ht
      cases ht
  · rw [hostEvent_rest he h]
    exact ⟨rfl, rfl, rfl, rfl, rfl, rfl⟩

end Sys2Proof.Machine


/-! Proofs of the statements that belong to no one family. First the dispatch table as a whole (30_encoding.md sections 3
and 4): no two rows compete but at CLS and RET, the encoder and the decoder undo each other, and which words have no
row. -/

namespace Sys2Proof.Machine

/-! ## Which rows compete for a word (30_encoding.md R75) -/

/-- What has to hold of a row and a later one if some word is to match both: the later is SYS, and the earlier is CLS or
RET, which match one word each. -/
def Overlaps (r q : Row) : Prop :=
  q.mnemonic = "SYS_addr" ∧ r.mask = 0xFFFF#16 ∧
    (r.pattern = 0x00E0#16 ∧ r.mnemonic = "CLS" ∨ r.pattern = 0x00EE#16 ∧ r.mnemonic = "RET")

/-- Two rows match one word only if their patterns agree where both masks look. -/
theorem patterns_agree_of_matches {r q : Row} {op : Word} (hr : r ∈ table) (hq : q ∈ table)
    (hrm : r.matches op = true) (hqm : q.matches op = true) : r.pattern &&& q.mask = q.pattern &&& r.mask := by
  rw [← (matches_iff_masked_eq hr op).1 hrm, ← (matches_iff_masked_eq hq op).1 hqm, BitVec.and_assoc, BitVec.and_assoc,
    BitVec.and_comm r.mask]

/-- In the table, patterns agree where both masks look for SYS behind CLS and RET alone. -/
theorem table_pairwise_overlaps :
    table.Pairwise fun r q => r.pattern &&& q.mask = q.pattern &&& r.mask → Overlaps r q := by
  unfold Overlaps
  decide

/-- Settles O4: rows that match one word agree where both masks look. -/
theorem onlySysOverlapsEarlierRows : Obligations.OnlySysOverlapsEarlierRows := by
  intro op a b r q hab ha hb hr hq
  obtain ⟨hla, rfl⟩ := List.getElem?_eq_some_iff.1 ha
  obtain ⟨hlb, rfl⟩ := List.getElem?_eq_some_iff.1 hb
  have hra := List.getElem_mem hla
  obtain ⟨hsys, hmask, hrow⟩ := List.pairwise_iff_getElem.1 table_pairwise_overlaps a b hla hlb hab
    (patterns_agree_of_matches hra (List.getElem_mem hlb) hr hq)
  have hop : op = table[a].pattern := by
    rw [← (matches_iff_masked_eq hra op).1 hr, hmask]
    exact BitVec.and_allOnes.symm
  rw [hop]
  exact ⟨hsys, hrow⟩

/-- SYS makes no well-formed instruction of the words of CLS and RET. -/
theorem sys_row_illFormed : ∀ r ∈ table, r.mnemonic = "SYS_addr" →
    (r.form.build 0x00E0).wellFormed = false ∧ (r.form.build 0x00EE).wellFormed = false := by decide

/-- A row that makes a well-formed instruction of a word is the first that matches it. -/
theorem findRow_of_wellFormed {op : Word} {r : Row} (hr : r ∈ table) (hm : r.matches op = true)
    (hw : (r.form.build op).wellFormed = true) : findRow op = some r := by
  cases hf : findRow op with
  | none => exact absurd hm (List.find?_eq_none.1 hf r hr)
  | some q =>
    obtain ⟨hq, a, ha, rfl, hbefore⟩ := List.find?_eq_some_iff_getElem.1 hf
    obtain ⟨b, hb, rfl⟩ := List.getElem_of_mem hr
    rcases Nat.lt_trichotomy a b with hab | rfl | hab
    · obtain ⟨hsys, hop⟩ := onlySysOverlapsEarlierRows op a b _ _ hab (List.getElem?_eq_getElem ha)
        (List.getElem?_eq_getElem hb) hq hm
      obtain ⟨hE0, hEE⟩ := sys_row_illFormed _ hr hsys
      rcases hop with ⟨rfl, -⟩ | ⟨rfl, -⟩
      · exact absurd (hw.symm.trans hE0) (by decide)
      · exact absurd (hw.symm.trans hEE) (by decide)
    · rfl
    · exact absurd hm (by simpa using hbefore b hab)

/-! ## Decoding an encoding -/

open Laws.MatchesOwnRow in
/-- Every instruction is made of its own word by a row that matches the word. -/
theorem matchesOwnRow : ∀ i : Instr, Laws.MatchesOwnRow.Statement i
  | .cls => cls
  | .ret => ret
  | .sys nnn => sys nnn
  | .jp nnn => jp nnn
  | .call nnn => call nnn
  | .seByte x kk => seByte x kk
  | .sneByte x kk => sneByte x kk
  | .seReg x y => seReg x y
  | .ldByte x kk => ldByte x kk
  | .addByte x kk => addByte x kk
  | .ldReg x y => ldReg x y
  | .orReg x y => orReg x y
  | .andReg x y => andReg x y
  | .xorReg x y => xorReg x y
  | .addReg x y => addReg x y
  | .sub x y => sub x y
  | .shr x => shr x
  | .subn x y => subn x y
  | .shl x => shl x
  | .sneReg x y => sneReg x y
  | .ldI nnn => ldI nnn
  | .jpV0 nnn => jpV0 nnn
  | .rnd x kk => rnd x kk
  | .drw x y n => drw x y n
  | .skp x => skp x
  | .sknp x => sknp x
  | .ldVxDT x => ldVxDT x
  | .ldVxK x => ldVxK x
  | .ldDT x => ldDT x
  | .ldST x => ldST x
  | .addI x => addI x
  | .ldF x => ldF x
  | .ldB x => ldB x
  | .storeRegs x => storeRegs x
  | .loadRegs x => loadRegs x

/-- The word of a well-formed instruction decodes to it. -/
theorem decodeWord_encode {i : Instr} (hw : i.wellFormed = true) : decodeWord (encode i) = .ok i := by
  obtain ⟨r, hr, hm, hb⟩ := matchesOwnRow i
  rw [decodeWord_of_findRow (findRow_of_wellFormed hr hm (hb.symm ▸ hw)), hb]

/-- Settles O1: the two bytes make the encoded word again, and its own row is the first that matches it. -/
theorem decodeOfEncodeIsTheInstruction : Obligations.DecodeOfEncodeIsTheInstruction := by
  intro i rest hw
  refine decode_eq_ok_iff.2 ⟨?_, rfl⟩
  rw [wordOfBytes_hi_lo, decodeWord_encode hw]

/-- Settles O6: the four words are those of well-formed instructions. -/
theorem printedEncodingsDecode : Obligations.PrintedEncodingsDecode :=
  ⟨decodeOfEncodeIsTheInstruction (.addI 4) [] rfl, decodeOfEncodeIsTheInstruction (.addReg 4 5) [] rfl,
   decodeOfEncodeIsTheInstruction (.drw 1 2 3) [] rfl, decodeOfEncodeIsTheInstruction (.jp 0xFFF) [] rfl⟩

/-! ## Encoding what a word decodes to -/

section Rebuild

variable (op : Word) {p : Word}

@[simp] theorem nibbleBits_fieldX : nibbleBits (fieldX op) = op.extractLsb' 8 4 := rfl
@[simp] theorem nibbleBits_fieldY : nibbleBits (fieldY op) = op.extractLsb' 4 4 := rfl
@[simp] theorem nibbleBits_fieldN : nibbleBits (fieldN op) = op.extractLsb' 0 4 := rfl

variable {op}

/-- Format NNN: a word is its pattern with its address in place. -/
theorem rebuild_nnn (h : op &&& 0xF000#16 = p) : p ||| zext16 (fieldNNN op) = op := by
  subst h
  ext i hi
  interval_cases i <;> simp [fieldNNN]

/-- Format XKK. -/
theorem rebuild_xkk (h : op &&& 0xF000#16 = p) : p ||| placeX (fieldX op) ||| zext16 (fieldKK op) = op := by
  subst h
  ext i hi
  interval_cases i <;> simp [fieldKK, placeX]

/-- Format XY. -/
theorem rebuild_xy (h : op &&& 0xF00F#16 = p) : p ||| placeX (fieldX op) ||| placeY (fieldY op) = op := by
  subst h
  ext i hi
  interval_cases i <;> simp [placeX, placeY]

/-- Format XY of SHR and SHL, whose encoding leaves `y` out (decision D9). -/
theorem rebuild_xy_without_y (h : op &&& 0xF00F#16 = p) : p ||| placeX (fieldX op) = op &&& 0xFF0F#16 := by
  subst h
  ext i hi
  interval_cases i <;> simp [placeX]

/-- Format XYN. -/
theorem rebuild_xyn (h : op &&& 0xF000#16 = p) :
    p ||| placeX (fieldX op) ||| placeY (fieldY op) ||| placeN (fieldN op) = op := by
  subst h
  ext i hi
  interval_cases i <;> simp [placeX, placeY, placeN]

/-- Format X. -/
theorem rebuild_x (h : op &&& 0xF0FF#16 = p) : p ||| placeX (fieldX op) = op := by
  subst h
  ext i hi
  interval_cases i <;> simp [placeX]

end Rebuild

/-- Encoding what a row makes of a word it matches gives the word back, but for the ignored `y` of SHR and SHL. -/
def Reencodes (r : Row) : Prop :=
  ∀ op : Word, op &&& r.mask = r.pattern →
    encode (r.form.build op) = op ∨
      ((∃ x, r.form.build op = .shr x ∨ r.form.build op = .shl x) ∧ encode (r.form.build op) = op &&& 0xFF0F#16)

/-! A row's encoding is its pattern with the operands of its format in place (30_encoding.md R77). -/

section Formats

variable {name : String} {p : Word}

theorem Reencodes.none {i : Instr} (hi : encode i = p) : Reencodes ⟨name, p, 0xFFFF, .none i⟩ :=
  fun _ h => .inl (hi.trans (h.symm.trans BitVec.and_allOnes))

theorem Reencodes.nnn {f : Addr → Instr} (hf : ∀ nnn, encode (f nnn) = p ||| zext16 nnn) :
    Reencodes ⟨name, p, 0xF000, .nnn f⟩ := fun _ h => .inl ((hf _).trans (rebuild_nnn h))

theorem Reencodes.xkk {f : Reg → Byte → Instr} (hf : ∀ x kk, encode (f x kk) = p ||| placeX x ||| zext16 kk) :
    Reencodes ⟨name, p, 0xF000, .xkk f⟩ := fun _ h => .inl ((hf _ _).trans (rebuild_xkk h))

theorem Reencodes.xy {f : Reg → Reg → Instr} (hf : ∀ x y, encode (f x y) = p ||| placeX x ||| placeY y) :
    Reencodes ⟨name, p, 0xF00F, .xy f⟩ := fun _ h => .inl ((hf _ _).trans (rebuild_xy h))

theorem Reencodes.shift {f : Reg → Instr} (hf : ∀ x, encode (f x) = p ||| placeX x)
    (hs : ∀ x, f x = .shr x ∨ f x = .shl x) : Reencodes ⟨name, p, 0xF00F, .xy fun x _ => f x⟩ :=
  fun _ h => .inr ⟨⟨_, hs _⟩, (hf _).trans (rebuild_xy_without_y h)⟩

theorem Reencodes.xyn {f : Reg → Reg → Nibble → Instr}
    (hf : ∀ x y n, encode (f x y n) = p ||| placeX x ||| placeY y ||| placeN n) :
    Reencodes ⟨name, p, 0xF000, .xyn f⟩ := fun _ h => .inl ((hf _ _ _).trans (rebuild_xyn h))

theorem Reencodes.x {f : Reg → Instr} (hf : ∀ x, encode (f x) = p ||| placeX x) :
    Reencodes ⟨name, p, 0xF0FF, .x f⟩ := fun _ h => .inl ((hf _).trans (rebuild_x h))

end Formats

theorem tableControl_reencodes : ∀ r ∈ tableControl, Reencodes r := by
  simp only [tableControl, List.forall_mem_cons]
  exact ⟨.none rfl, .none rfl, .nnn fun _ => rfl, .nnn fun _ => rfl, .nnn fun _ => rfl, .xkk fun _ _ => rfl,
    .xkk fun _ _ => rfl, .xy fun _ _ => rfl, List.forall_mem_nil _⟩

theorem tableArith_reencodes : ∀ r ∈ tableArith, Reencodes r := by
  simp only [tableArith, List.forall_mem_cons]
  exact ⟨.xkk fun _ _ => rfl, .xkk fun _ _ => rfl, .xy fun _ _ => rfl, .xy fun _ _ => rfl, .xy fun _ _ => rfl,
    .xy fun _ _ => rfl, .xy fun _ _ => rfl, .xy fun _ _ => rfl, .shift (fun _ => rfl) fun _ => .inl rfl,
    .xy fun _ _ => rfl, .shift (fun _ => rfl) fun _ => .inr rfl, .xy fun _ _ => rfl, List.forall_mem_nil _⟩

theorem tableIndexDisplayKeys_reencodes : ∀ r ∈ tableIndexDisplayKeys, Reencodes r := by
  simp only [tableIndexDisplayKeys, List.forall_mem_cons]
  exact ⟨.nnn fun _ => rfl, .nnn fun _ => rfl, .xkk fun _ _ => rfl, .xyn fun _ _ _ => rfl, .x fun _ => rfl,
    .x fun _ => rfl, List.forall_mem_nil _⟩

theorem tableF_reencodes : ∀ r ∈ tableF, Reencodes r := by
  simp only [tableF, List.forall_mem_cons]
  exact ⟨.x fun _ => rfl, .x fun _ => rfl, .x fun _ => rfl, .x fun _ => rfl, .x fun _ => rfl, .x fun _ => rfl,
    .x fun _ => rfl, .x fun _ => rfl, .x fun _ => rfl, List.forall_mem_nil _⟩

theorem table_reencodes : ∀ r ∈ table, Reencodes r := by
  simp only [table, List.forall_mem_append]
  exact ⟨⟨⟨tableControl_reencodes, tableArith_reencodes⟩, tableIndexDisplayKeys_reencodes⟩, tableF_reencodes⟩

/-- What a word decodes to is made of it by a row that matches it. -/
theorem row_of_decodeWord {op : Word} {i : Instr} (h : decodeWord op = .ok i) :
    ∃ r ∈ table, r.matches op = true ∧ r.form.build op = i := by
  rw [decodeWord] at h
  cases hf : findRow op with
  | none => simp [hf] at h
  | some r =>
    simp only [hf, Except.ok.injEq] at h
    exact ⟨r, List.mem_of_find?_eq_some hf, List.find?_some (p := (Row.matches · op)) hf, h⟩

/-- The instructions that are not well-formed are SYS with the low bits of the words of CLS and RET (30_encoding.md
R75). -/
theorem sys_of_illFormed {i : Instr} (h : i.wellFormed = false) : i = .sys 0x0E0 ∨ i = .sys 0x0EE := by
  cases i with
  | sys nnn => simpa [Instr.wellFormed, or_iff_not_imp_left] using h
  | _ => cases h

/-- A word decodes to a well-formed instruction: the two that are not have words that decode otherwise. -/
theorem wellFormed_of_decodeWord {op : Word} {i : Instr} (h : decodeWord op = .ok i)
    (he : encode i = op ∨ ∃ x, i = .shr x ∨ i = .shl x) : i.wellFormed = true := by
  by_contra hw
  rcases he with rfl | ⟨x, rfl | rfl⟩
  · rcases sys_of_illFormed (by simpa using hw) with rfl | rfl
    · exact absurd (h.symm.trans (decodeWord_encode (i := .cls) rfl)) (by decide)
    · exact absurd (h.symm.trans (decodeWord_encode (i := .ret) rfl)) (by decide)
  · exact hw rfl
  · exact hw rfl

/-- Settles O2: the row that decodes the word re-encodes it. -/
theorem encodeOfDecodeIsTheWord : Obligations.EncodeOfDecodeIsTheWord := by
  intro op i h
  obtain ⟨r, hr, hm, rfl⟩ := row_of_decodeWord h
  have he := table_reencodes r hr op ((matches_iff_masked_eq hr op).1 hm)
  exact ⟨wellFormed_of_decodeWord h (he.imp_right fun hs => hs.1), he⟩

/-! ## The words with no row (30_encoding.md R78) -/

/-- A word is illegal when no row with its top nibble matches it. -/
theorem illegal_iff (op : Word) : decodeWord op = .error (.illegalOpcode op) ↔
    ∀ r ∈ rowsWithTop (fieldTop op), r.matches op = false := by
  have hf : findRow op = none ↔ ∀ r ∈ rowsWithTop (fieldTop op), r.matches op = false := by
    rw [findRow_eq_find_rowsWithTop, List.find?_eq_none]
    simp
  rw [← hf, decodeWord]
  cases findRow op <;> simp

/-- A mask looks at the top nibble and at one more field of a word, and at nothing else. -/
def LooksAt {α : Type} (m : Word) (field : Word → α) : Prop :=
  ∀ a b : Word, a &&& m = b &&& m ↔ fieldTop a = fieldTop b ∧ field a = field b

/-- What a mask keeps whole agrees where the masked words do. -/
theorem extractLsb'_eq_of_and_eq {a b m : Word} {start len : Nat} (h : a &&& m = b &&& m)
    (hm : m.extractLsb' start len = BitVec.allOnes len) : a.extractLsb' start len = b.extractLsb' start len := by
  have := congrArg (BitVec.extractLsb' start len) h
  rwa [BitVec.extractLsb'_and, BitVec.extractLsb'_and, hm, BitVec.and_allOnes, BitVec.and_allOnes] at this

theorem and_F000 (op : Word) : op &&& 0xF000 = fieldTop op ++ 0#12 := by
  apply BitVec.eq_of_getLsbD_eq
  intro i hi
  simp only [BitVec.getLsbD_append, BitVec.getLsbD_and]
  interval_cases i <;> simp [fieldTop]

theorem and_F00F (op : Word) : op &&& 0xF00F = fieldTop op ++ 0#8 ++ nibbleBits (fieldN op) := by
  apply BitVec.eq_of_getLsbD_eq
  intro i hi
  simp only [BitVec.getLsbD_append, BitVec.getLsbD_and]
  interval_cases i <;> simp [fieldTop]

theorem and_F0FF (op : Word) : op &&& 0xF0FF = fieldTop op ++ 0#4 ++ fieldKK op := by
  apply BitVec.eq_of_getLsbD_eq
  intro i hi
  simp only [BitVec.getLsbD_append, BitVec.getLsbD_and]
  interval_cases i <;> simp [fieldTop, fieldKK]

/-- The mask F000 looks at the top nibble alone. -/
theorem looksAt_F000 : LooksAt 0xF000 fun _ => () := fun a b =>
  ⟨fun h => ⟨extractLsb'_eq_of_and_eq h (by decide), rfl⟩, fun ⟨ht, _⟩ => by rw [and_F000, and_F000, ht]⟩

theorem looksAt_F00F : LooksAt 0xF00F fieldN := fun a b =>
  ⟨fun h => ⟨extractLsb'_eq_of_and_eq h (by decide),
    congrArg BitVec.toFin (extractLsb'_eq_of_and_eq h (by decide) : a.extractLsb' 0 4 = b.extractLsb' 0 4)⟩,
   fun ⟨ht, hn⟩ => by rw [and_F00F, and_F00F, ht, hn]⟩

theorem looksAt_F0FF : LooksAt 0xF0FF fieldKK := fun a b =>
  ⟨fun h => ⟨extractLsb'_eq_of_and_eq h (by decide), extractLsb'_eq_of_and_eq h (by decide)⟩,
   fun ⟨ht, hk⟩ => by rw [and_F0FF, and_F0FF, ht, hk]⟩

/-- A row with the word's top nibble matches it by the other field its mask looks at. -/
theorem matches_iff_field_eq {α : Type} {field : Word → α} {op : Word} {r : Row} (hm : LooksAt r.mask field)
    (hr : r ∈ rowsWithTop (fieldTop op)) : r.matches op = true ↔ field op = field r.pattern := by
  obtain ⟨hr, ht⟩ := List.mem_filter.1 hr
  have hlook := hm op r.pattern
  rw [and_mask_of_zero_outside (pattern_zero_outside_mask r hr)] at hlook
  rw [matches_iff_masked_eq hr, hlook, and_iff_right (beq_iff_eq.1 ht).symm]

/-- Where the masks of all rows with the top nibble look at one field, the illegal words have in it what none of the
patterns has. -/
theorem illegal_iff_field_not_mem {α : Type} {field : Word → α} {m : Word} {op : Word} {top : BitVec 4} {fs : List α}
    (hlook : LooksAt m field) (ht : fieldTop op = top) (hm : ∀ r ∈ rowsWithTop top, r.mask = m)
    (hfs : (rowsWithTop top).map (field ·.pattern) = fs) :
    decodeWord op = .error (.illegalOpcode op) ↔ field op ∉ fs := by
  subst ht hfs
  simp only [illegal_iff, List.mem_map, not_exists, not_and]
  refine forall₂_congr fun r hr => ?_
  rw [← Bool.not_eq_true, matches_iff_field_eq (hm r hr ▸ hlook) hr, eq_comm]

/-- A top nibble with a row of mask F000 has no illegal word. -/
theorem not_illegal_of_mask_F000 {op : Word} (h : ∃ r ∈ rowsWithTop (fieldTop op), r.mask = 0xF000) :
    decodeWord op ≠ .error (.illegalOpcode op) := by
  obtain ⟨r, hr, hm⟩ := h
  have hmatch : r.matches op = true := (matches_iff_field_eq (hm ▸ looksAt_F000) hr).2 rfl
  exact fun hill => absurd hmatch (by simp [(illegal_iff op).1 hill r hr])

/-- The top nibbles whose rows look at more than the top nibble are 5, 8, 9, E and F. -/
theorem mask_F000_or_top : ∀ top : BitVec 4,
    (∃ r ∈ rowsWithTop top, r.mask = 0xF000) ∧
      top ≠ 0x5#4 ∧ top ≠ 0x9#4 ∧ top ≠ 0x8#4 ∧ top ≠ 0xE#4 ∧ top ≠ 0xF#4 ∨
    top = 0x5#4 ∨ top = 0x9#4 ∨ top = 0x8#4 ∨ top = 0xE#4 ∨ top = 0xF#4 := by decide

/-- The other low nibbles with top nibble 8. -/
theorem nibble_not_mem_rows_eight : ∀ n : Nibble, n ∉ ([0, 1, 2, 3, 4, 5, 6, 7, 14] : List Nibble) ↔
    n ∈ ([8, 9, 10, 11, 12, 13, 15] : List Nibble) := by decide

/-- Settles O5: top nibble by top nibble, by the low nibbles or low bytes of the rows that have it. -/
theorem illegalOpcodesByTopNibble : Obligations.IllegalOpcodesByTopNibble := by
  intro op
  rcases mask_F000_or_top (fieldTop op) with ⟨h, h5, h9, h8, hE, hF⟩ | h | h | h | h | h
  · simp [not_illegal_of_mask_F000 h, h5, h9, h8, hE, hF]
  · rw [illegal_iff_field_not_mem (fs := [0]) looksAt_F00F h (by decide) rfl]
    simp [h]
  · rw [illegal_iff_field_not_mem (fs := [0]) looksAt_F00F h (by decide) rfl]
    simp [h]
  · rw [illegal_iff_field_not_mem (fs := [0, 1, 2, 3, 4, 5, 6, 7, 14]) looksAt_F00F h (by decide) rfl,
      nibble_not_mem_rows_eight]
    simp [h]
  · rw [illegal_iff_field_not_mem (fs := [0x9E, 0xA1]) looksAt_F0FF h (by decide) rfl]
    simp [h]
  · rw [illegal_iff_field_not_mem (fs := [0x07, 0x0A, 0x15, 0x18, 0x1E, 0x29, 0x33, 0x55, 0x65]) looksAt_F0FF h
      (by decide) rfl]
    simp [h]

end Sys2Proof.Machine

/-! What single instructions answer (40_control_flow.md to 42_index_memory.md), each by the lemma for its way of writing
the state. -/

namespace Sys2Proof.Machine

/-! ## Who writes what (10_state.md R22, R27) -/

/-- Settles O22: what an instruction can do to the registers. -/
theorem otherRegistersAreUnchanged : Obligations.OtherRegistersAreUnchanged := fun _ _ _ _ => exec_other_reg

/-- Settles O23: each effect of an instruction that changes a special field names its writer. -/
theorem specialStateHasItsWriters : Obligations.SpecialStateHasItsWriters := by
  intro i s t h
  cases exec_effect h with
  | fault | goto | regs | ret | call | rnd | wait | delay | sound => simp
  | draw writer | index writer | store writer => simp [writer]

/-! ## The held machine and the timer tick (60_exceptions.md) -/

/-- Settles O11: a held machine does not run, and neither the fault nor its place is what keeps it. -/
theorem heldStepChangesNothing : Obligations.HeldStepChangesNothing := by
  intro s hf hp hw
  have hr : ¬ Running s := fun r => absurd (r.notHeld.symm.trans hw) (by decide)
  have held : (!s.fault && s.pcInMemory) = true := by simp [hf, s.pcInMemory_iff.2 hp]
  rw [step_not_running hr, held]
  rfl

/-- Settles O56: both timers tick, whatever the machine's condition. -/
theorem timerTickCountsDownToZero : Obligations.TimerTickCountsDownToZero := fun s =>
  ⟨_, rfl, tickDown_toNat s.DT, tickDown_toNat s.ST, rfl⟩

/-! ## Control flow (40_control_flow.md) -/

/-- Settles O27: SYS goes to the next instruction. -/
theorem sysOnlyAdvances : Obligations.SysOnlyAdvances := fun _ s => ⟨_, rfl, rfl, .jump s s.nextpc⟩

/-- Settles O28: going down by 1 is going up by 15 modulo 16. -/
theorem retTakesTheSavedAddress : Obligations.RetTakesTheSavedAddress := by
  intro s
  refine ⟨s.popPc, rfl, ?_, rfl, rfl, fun _ => rfl⟩
  rw [State.popPc_sp]
  bv_omega

/-- Settles O30: the pushed slot holds the next address, and the other slots what they held. -/
theorem callSavesTheNextAddress : Obligations.CallSavesTheNextAddress := fun nnn s =>
  ⟨_, rfl, State.slot_push_same s s.nextpc, fun _ hk => State.slot_push_ne s s.nextpc hk,
    BitVec.toNat_add s.sp 1, toNat_zext16_addr nnn, rfl, fun _ => rfl⟩

/-- Settles O31: going down from the pointer the CALL moved up is back at its slot. -/
theorem callThenRetReturns : Obligations.CallThenRetReturns := by
  intro nnn s t u ht hstack hsp
  cases ht
  have hback : u.sp - 1 = s.sp := by rw [hsp]; exact BitVec.add_sub_cancel s.sp 1
  refine ⟨_, rfl, ?_, hback, rfl⟩
  rw [State.popPc_pc, hback, State.slot_congr hstack]
  exact State.slot_push_same s s.nextpc

/-- Settles O32: the sum of a 12-bit address and a byte has room in 16 bits. -/
theorem jpV0AddsV0 : Obligations.JpV0AddsV0 := by
  intro nnn s
  refine ⟨_, rfl, ?_, .jump s _⟩
  rw [State.jump_pc]
  simp only [zext16]
  bv_omega

/-- Settles O33: the skip is on the two bytes being equal. -/
theorem seByteSkipsWhenEqual : Obligations.SeByteSkipsWhenEqual := fun x kk s =>
  exec_skip rfl (byte_beq_iff (s.reg x) kk)

/-! ## Loads and logic (41_load_arith.md) -/

/-- Settles O36: both are writes of one register. -/
theorem registerLoads : Obligations.RegisterLoads := fun _ _ _ _ => ⟨exec_setReg rfl, exec_setReg rfl⟩

/-- Settles O38: the register written holds the sum of two bytes as a byte. -/
theorem addRegWrapsWithoutCarryFlag : Obligations.AddRegWrapsWithoutCarryFlag := by
  intro x y s
  obtain ⟨t, ht, hx, hpc, hframe⟩ : ∃ t, exec (.addReg x y) s = .next t ∧ t.reg x = s.reg x + s.reg y ∧
      t.pc = s.pc + 2 ∧ OnlyRegPc x s t := exec_setReg rfl
  exact ⟨t, ht, hx ▸ BitVec.toNat_add _ _, hpc, hframe⟩

/-- An instruction that writes one register, described by the bits it writes. -/
theorem exec_setReg_bits {i : Instr} {x : Reg} {s : State} {v : Byte} {bit : Nat → Bool}
    (he : exec i s = .next (s.setReg x v).advance) (hv : ∀ j, v.getLsbD j = bit j) :
    ∃ t, exec i s = .next t ∧ t.pc = s.pc + 2 ∧ OnlyRegPc x s t ∧ ∀ j < 8, (t.reg x).getLsbD j = bit j := by
  obtain ⟨t, ht, hx, hpc, hframe⟩ := exec_setReg he
  exact ⟨t, ht, hpc, hframe, fun j _ => hx ▸ hv j⟩

/-- Settles O39: the bits of the bitwise operations on bytes. -/
theorem logicWorksBitByBit : Obligations.LogicWorksBitByBit := fun _ _ _ =>
  ⟨exec_setReg_bits rfl fun _ => BitVec.getLsbD_or, exec_setReg_bits rfl fun _ => BitVec.getLsbD_and,
   exec_setReg_bits rfl fun _ => BitVec.getLsbD_xor⟩

/-- Settles O43: the register written is the drawn byte under the mask, which is at most the mask. -/
theorem rndIsTheDrawUnderTheMask : Obligations.RndIsTheDrawUnderTheMask := by
  intro x kk s
  have hx : ((s.setReg x (Config.drawByte s.draws &&& kk)).reg x) = Config.drawByte s.draws &&& kk :=
    State.reg_setReg_same ..
  refine ⟨_, rfl, fun j _ => ?_, ?_, rfl, rfl, rfl, fun k hk => State.reg_setReg_ne s _ hk, fun _ => rfl⟩
  · exact (congrArg (·.getLsbD j) hx).trans BitVec.getLsbD_and
  · exact (congrArg BitVec.toNat hx).trans_le ((BitVec.toNat_and ..).trans_le Nat.and_le_right)

/-- Settles O54: a register write, and two writes of a timer. -/
theorem timerMoves : Obligations.TimerMoves := fun _ _ =>
  ⟨exec_setReg rfl, ⟨_, rfl, rfl, rfl, rfl, fun _ => rfl⟩, ⟨_, rfl, rfl, rfl, rfl, fun _ => rfl⟩⟩

/-- Settles O53: the wait and its target are all it writes. -/
theorem ldKSetsTheWait : Obligations.LdKSetsTheWait := fun _ _ => ⟨_, rfl, rfl, rfl, rfl, rfl, fun _ => rfl⟩

/-! ## Flags (41_load_arith.md R128 to R131, decision D8) -/

/-- SUB, SUBN, SHR and SHL: the flag goes to `VF`, then the result of the registers as that left them goes to the
destination. -/
theorem exec_flagAndResult {i : Instr} {x : Reg} {f r : State → Byte} {s : State}
    (he : exec i s = .next (flagAndResult .sequential x f r s).advance) :
    ∃ t, exec i s = .next t ∧ t.reg x = r (s.setReg .VF (f s)) ∧ (x ≠ .VF → t.reg .VF = f s) ∧ t.pc = s.pc + 2 ∧
      OnlyRegVFPc x s t := by
  have rest := flagAndResult_rest .sequential x f r s
  refine ⟨_, he, flagAndResult_dest x f r s, fun hx => flagAndResult_flag hx f r s, ?_, ?_, ?_, ?_⟩
  · rw [rest]
    rfl
  · rw [rest]
    rfl
  · exact fun k hk hVF => flagAndResult_other .sequential hk hVF f r s
  · intro a
    rw [rest]
    rfl

/-- A register as the flag write left it. -/
theorem toNat_reg_setReg_VF (s : State) (k : Reg) (v : Byte) :
    ((s.setReg .VF v).reg k).toNat = if k = .VF then v.toNat else (s.reg k).toNat := by
  rw [State.reg_setReg, apply_ite BitVec.toNat]

/-- The difference of two bytes modulo 256. -/
theorem toNat_byte_sub (a b : Byte) : (a - b).toNat = (a.toNat + 256 - b.toNat) % 256 := by bv_omega

/-- The difference of two registers with their comparison flag, the registers being read as the flag left them. -/
theorem exec_difference {i : Instr} {x : Reg} {s : State} (a b : Reg)
    (he : exec i s = .next (flagAndResult .sequential x (fun t => flagGreater (t.reg a) (t.reg b))
      (fun t => t.reg a - t.reg b) s).advance) :
    ∃ t, exec i s = .next t ∧
      let flag := if (s.reg b).toNat < (s.reg a).toNat then 1 else 0
      let left := fun k : Reg => if k = Reg.VF then flag else (s.reg k).toNat
      (t.reg x).toNat = (left a + 256 - left b) % 256 ∧ (x ≠ Reg.VF → (t.reg Reg.VF).toNat = flag) ∧
      t.pc = s.pc + 2 ∧ OnlyRegVFPc x s t := by
  obtain ⟨t, ht, hx, hVF, hpc, hframe⟩ := exec_flagAndResult he
  refine ⟨t, ht, ?_, fun h => ?_, hpc, hframe⟩
  · rw [hx, toNat_byte_sub, toNat_reg_setReg_VF, toNat_reg_setReg_VF, flagGreater_toNat]
  · rw [hVF h, flagGreater_toNat]

/-- Settles O40: the difference is of the registers as the comparison flag left them. -/
theorem subWritesTheFlagFirst : Obligations.SubWritesTheFlagFirst := fun x y _ => exec_difference x y rfl

/-- Settles O41: as SUB, with the operands exchanged. -/
theorem subnWritesTheFlagFirst : Obligations.SubnWritesTheFlagFirst := fun x y _ => exec_difference y x rfl

/-- Settles O42: halving and doubling are of the register as the flag left it. -/
theorem shiftsWriteTheFlagFirst : Obligations.ShiftsWriteTheFlagFirst := by
  intro x s
  constructor
  · obtain ⟨t, ht, hx, hVF, hpc, hframe⟩ := exec_flagAndResult (i := .shr x) (s := s) rfl
    refine ⟨t, ht, ?_, fun h => ?_, hpc, hframe⟩
    · rw [hx, BitVec.toNat_ushiftRight, Nat.shiftRight_one, toNat_reg_setReg_VF, flagLowBit_toNat]
    · rw [hVF h, flagLowBit_toNat]
  · obtain ⟨t, ht, hx, hVF, hpc, hframe⟩ := exec_flagAndResult (i := .shl x) (s := s) rfl
    refine ⟨t, ht, ?_, fun h => ?_, hpc, hframe⟩
    · rw [hx, BitVec.toNat_shiftLeft, Nat.shiftLeft_eq, toNat_reg_setReg_VF, flagHighBit_toNat]
    · rw [hVF h, flagHighBit_toNat]

/-! ## The address register and memory (42_index_memory.md) -/

/-- Settles O44: each writes `I` alone; the product of 5 and a byte has room in 16 bits. -/
theorem addressRegisterWrites : Obligations.AddressRegisterWrites := by
  intro nnn x s
  refine ⟨⟨_, rfl, toNat_zext16_addr nnn, rfl, rfl, fun _ => rfl⟩, ⟨_, rfl, ?_, rfl, rfl, fun _ => rfl⟩,
    ⟨_, rfl, ?_, rfl, rfl, fun _ => rfl⟩⟩
  · show (s.I + zext16 (s.reg x)).toNat = _
    simp only [zext16]
    bv_omega
  · show (5 * zext16 (s.reg x)).toNat = _
    simp only [zext16]
    bv_omega

/-- The decimal digits as numbers (decision D21). -/
theorem toNat_decimalDigits (v : Byte) : (BitVec.ofNat 8 (v.toNat / 100)).toNat = v.toNat / 100 ∧
    (BitVec.ofNat 8 (v.toNat / 10 % 10)).toNat = v.toNat / 10 % 10 ∧
    (BitVec.ofNat 8 (v.toNat % 10)).toNat = v.toNat % 10 := by
  have := v.isLt
  simp only [BitVec.toNat_ofNat]
  omega

/-- What every byte reads as after `LD B, Vx` in memory, and that nothing else but `pc` changes. -/
theorem exec_ldB_reads {x : Reg} {s : State} (hwf : s.mem.wf = true) (hin : s.dataAddr 2 ≤ 0xFFF) :
    ∃ t, exec (.ldB x) s = .next t ∧ t.pc = s.pc + 2 ∧ t = { s with mem := t.mem, pc := t.pc } ∧
      ∀ a, t.readByte a = if a = s.dataAddr 0 then BitVec.ofNat 8 ((s.reg x).toNat / 100)
        else if a = s.dataAddr 1 then BitVec.ofNat 8 ((s.reg x).toNat / 10 % 10)
        else if a = s.dataAddr 2 then BitVec.ofNat 8 ((s.reg x).toNat % 10) else s.readByte a :=
  ⟨_, exec_ldB_in_memory hin, rfl, rfl, fun a => read_storeFrom_three (s.dataAddr 0) a _ _ _ hwf hin⟩

/-- Settles O45: the three stored bytes are read back, and are the digits of `V[x]`. -/
theorem ldBStoresTheDigits : Obligations.LdBStoresTheDigits := by
  intro x s hwf hin
  obtain ⟨t, ht, hpc, rest, reads⟩ := exec_ldB_reads (x := x) hwf hin
  obtain ⟨hundreds, tens, units⟩ := toNat_decimalDigits (s.reg x)
  have b0 : (t.readByte (s.dataAddr 0)).toNat = (s.reg x).toNat / 100 := by rw [reads, if_pos rfl, hundreds]
  have b1 : (t.readByte (s.dataAddr 1)).toNat = (s.reg x).toNat / 10 % 10 := by
    rw [reads, if_neg (by simp [State.dataAddr]), if_pos rfl, tens]
  have b2 : (t.readByte (s.dataAddr 2)).toNat = (s.reg x).toNat % 10 := by
    rw [reads, if_neg (by simp [State.dataAddr]), if_neg (by simp [State.dataAddr]), if_pos rfl, units]
  refine ⟨t, ht, by omega, by omega, by omega, hpc, rest, fun a ha => ?_⟩
  unfold State.dataAddr at ha reads
  rw [reads, if_neg (by omega), if_neg (by omega), if_neg (by omega)]

/-- Settles O46: the registers stored are read back at their addresses, and no other byte changes. -/
theorem storeRegsStoresEachRegister : Obligations.StoreRegsStoresEachRegister := by
  intro x s hwf hin
  obtain ⟨stored, other⟩ := read_store_regs s x (s.dataAddr 0) hwf hin
  exact ⟨_, exec_storeRegs_in_memory hin, stored, rfl, rfl, other⟩

/-- `LD Vx, [I]` in memory loads the registers 0 to x and advances. -/
theorem exec_loadRegs_in_memory {x : Reg} {s : State} (h : s.dataAddr x.val ≤ 0xFFF) :
    exec (.loadRegs x) s = .next (loadEach .fault s (regsUpTo x)).advance :=
  ifInRange_ok h .fault s _

/-- Settles O47: loading changes the registers up to x, each to the byte at its address. -/
theorem loadRegsLoadsEachRegister : Obligations.LoadRegsLoadsEachRegister := by
  intro x s hin
  obtain ⟨⟨V, hV⟩, hreg⟩ := loadEach_spec s (regsUpTo x)
  refine ⟨_, exec_loadRegs_in_memory hin, fun k hk => ?_, fun k hk => ?_, ?_, ?_, fun a => ?_⟩
  · exact (hreg k).trans (if_pos (mem_regsUpTo.2 hk))
  · exact (hreg k).trans (if_neg fun h => absurd (mem_regsUpTo.1 h) (Fin.not_le.2 hk))
  all_goals rw [hV]; rfl

end Sys2Proof.Machine

/-! The display, the keys and the key wait, construction from an image, and the four parameters of the spec. -/

namespace Sys2Proof.Machine

/-! ## The display (43_display.md) -/

/-- Settles O49: every pixel of the cleared framebuffer is false. -/
theorem clsClearsEveryPixel : Obligations.ClsClearsEveryPixel := fun _ =>
  ⟨_, rfl, Framebuffer.pixel_clear, rfl, rfl, fun _ => rfl⟩

/-- The pixels a sprite visits are those it covers (43_display.md R152 (c)). -/
theorem mem_spritePixels_iff_covers (s : State) (x y : Reg) (n : Nibble) (px : Column) (py : PixelRow) :
    (px, py) ∈ spritePixels (s.reg x).toNat (s.reg y).toNat 0 (s.spriteBytes .fault n) ↔ SpriteCovers s x y n px py := by
  simp only [mem_spritePixels, getElem?_spriteBytes, SpriteCovers, Fin.ext_iff, columnOf, rowOf, Fin.ofNat, spriteBit,
    Nat.zero_add]
  constructor
  · rintro ⟨r, c, b, ⟨hr, rfl⟩, hc, hb, hx, hy⟩
    exact ⟨r, c, hr, hc, hb, hx, hy⟩
  · rintro ⟨r, c, hr, hc, hb, hx, hy⟩
    exact ⟨r, c, _, ⟨hr, rfl⟩, hc, hb, hx, hy⟩

/-- Exclusive-OR changes a bit where the other is set. -/
theorem xor_ne_left_iff (a b : Bool) : (a ^^ b) ≠ a ↔ b = true := by
  cases a <;> cases b <;> decide

/-- The canvas of a drawn sprite: exactly the covered pixels flip, and it collides where one of them was on. -/
theorem drawRows_sprite (s : State) (x y : Reg) (n : Nibble) :
    let d := drawRows (s.reg x).toNat (s.reg y).toNat 0 (s.spriteBytes .fault n) ⟨s.fb, false⟩
    (∀ px py, d.fb.pixel px py ≠ s.fb.pixel px py ↔ SpriteCovers s x y n px py) ∧
      (d.collision = true ↔ ∃ px py, SpriteCovers s x y n px py ∧ s.fb.pixel px py = true) := by
  have hlen : (s.spriteBytes .fault n).length ≤ 32 := by rw [length_spriteBytes]; omega
  obtain ⟨hpixel, hcollision⟩ := visits_spec _
    (nodup_spritePixels (s.reg x).toNat (s.reg y).toNat 0 (s.spriteBytes .fault n) hlen) ⟨s.fb, false⟩
  rw [drawRows_eq_visits]
  refine ⟨fun px py => ?_, ?_⟩
  · rw [hpixel, ← mem_spritePixels_iff_covers, xor_ne_left_iff, decide_eq_true_iff]
  · rw [hcollision]
    simp [mem_spritePixels_iff_covers]

/-- `DRW` whose sprite is in memory or has no row draws it, under either policy. -/
theorem execDrwWith_in_memory (p : OobPolicy) {x y : Reg} {n : Nibble} {s : State} (h : AccessInMemory (.drw x y n) s) :
    execDrwWith p x y n s = .next (drawn p x y n s) := by
  by_cases hn : n.val = 0
  · exact if_pos hn
  · exact (if_neg hn).trans (ifInRange_ok (h _ (if_neg hn)) p s _)

/-- Settles O50: the canvas of the sprite, and its collision in `VF`. -/
theorem drwFlipsTheCoveredPixels : Obligations.DrwFlipsTheCoveredPixels := by
  intro x y n s hin
  obtain ⟨hpixel, hcollision⟩ := drawRows_sprite s x y n
  have hVF : (drawn .fault x y n s).reg .VF = flagByte _ := State.reg_setReg_same _ .VF _
  refine ⟨_, execDrwWith_in_memory .fault hin, hpixel, fun h => ?_, fun h => ?_, rfl, rfl, fun k hk => ?_, fun _ => rfl⟩
  · rw [hVF, hcollision.2 h]
    rfl
  · rw [hVF, Bool.eq_false_iff.2 (mt hcollision.1 h)]
    rfl
  · exact State.reg_setReg_ne _ _ hk

/-- A sprite covers the same pixels in states with the same memory, `I` and coordinates. -/
theorem spriteCovers_congr {s t : State} {x y : Reg} {n : Nibble} (hmem : t.mem = s.mem) (hI : t.I = s.I)
    (hx : t.reg x = s.reg x) (hy : t.reg y = s.reg y) : SpriteCovers t x y n = SpriteCovers s x y n := by
  funext px py
  simp only [SpriteCovers, State.readByte, State.dataAddr, hmem, hI, hx, hy]

/-- A pixel that two draws flip, or that neither does, is as it was. -/
theorem eq_of_flipped_twice {a b c : Bool} {P : Prop} (hab : b ≠ a ↔ P) (hbc : c ≠ b ↔ P) : c = a := by
  by_cases h : P
  · rw [Bool.eq_not_iff.2 (hbc.2 h), Bool.eq_not_iff.2 (hab.2 h), Bool.not_not]
  · exact (not_ne_iff.1 (mt hbc.1 h)).trans (not_ne_iff.1 (mt hab.1 h))

/-- Settles O51: the second draw covers the pixels of the first, so it flips them back. -/
theorem drawingTwiceRestores : Obligations.DrawingTwiceRestores := by
  intro x y n s t hin ht hx hy
  obtain ⟨t', ht', hflip, -, -, -, rest, -, -⟩ := drwFlipsTheCoveredPixels x y n s hin
  obtain rfl : t = t' := by simpa using ht.symm.trans ht'
  have hI : t.I = s.I := by rw [rest]
  have hmem : t.mem = s.mem := by rw [rest]
  have hin' : AccessInMemory (.drw x y n) t := fun m hm => by
    rw [State.dataAddr, hI]
    exact hin m hm
  obtain ⟨u, hu, hflip', hon, hoff, -⟩ := drwFlipsTheCoveredPixels x y n t hin'
  rw [spriteCovers_congr hmem hI hx hy] at hflip' hon hoff
  have covered : ∀ px py, SpriteCovers s x y n px py ∧ t.fb.pixel px py = true ↔
      SpriteCovers s x y n px py ∧ s.fb.pixel px py = false := fun px py =>
    and_congr_right fun h => by rw [Bool.eq_not_iff.2 ((hflip px py).2 h), Bool.not_eq_true']
  simp only [covered] at hon hoff
  exact ⟨u, hu, Framebuffer.ext_pixel fun px py => eq_of_flipped_twice (hflip px py) (hflip' px py), hon, hoff⟩

/-! ## Keys (44_keyboard_timers.md, 60_exceptions.md) -/

/-- An instruction that skips on a condition goes on by 4 where it holds, and by 2 where it does not. -/
theorem exec_skip_or {i : Instr} {s : State} {c : Bool} {P : Prop} (he : exec i s = .next (skipIf c s))
    (hc : c = true ↔ P) :
    ∃ t, exec i s = .next t ∧ OnlyPc s t ∧ (t.pc = s.pc + 4 ∧ P ∨ t.pc = s.pc + 2 ∧ ¬ P) := by
  obtain ⟨t, ht, honly, hpc⟩ := exec_skip he Iff.rfl
  refine ⟨t, ht, honly, ?_⟩
  by_cases h : c = true
  · exact .inl ⟨hpc.trans (if_pos h), hc.1 h⟩
  · exact .inr ⟨hpc.trans (if_neg h), mt hc.2 h⟩

/-- Settles O52: the two skips are on a key being pressed, and on none. -/
theorem keySkips : Obligations.KeySkips := by
  intro x s
  have hp := s.pressed_iff (s.reg x)
  have hn : (!s.pressed (s.reg x)) = true ↔ ¬ ∃ c : Fin 16, (s.reg x).toNat = c.val ∧ s.keys[c.val] = true := by
    rw [Bool.not_eq_true', ← Bool.not_eq_true, hp]
  obtain ⟨t, ht, honly, hpc⟩ := exec_skip_or (i := .sknp x) rfl hn
  exact ⟨exec_skip_or rfl hp, t, ht, honly, by rwa [not_not] at hpc⟩

/-- A code is pressed after its key was set, and another as before. -/
theorem pressed_of_keys {s t : State} {c : Nat} {b : Bool} (hc : c < 16) (h : t.keys = s.keys.set c b) (k : Byte) :
    t.pressed k = if k.toNat = c then b else s.pressed k := by
  unfold State.pressed
  by_cases hk : k.toNat = c
  · subst hk
    simp [h, hc]
  · by_cases hlt : k.toNat < 16
    · simp [h, hk, hlt, Vector.getElem_set_ne _ _ (Ne.symm hk)]
    · simp [hk, hlt]

/-- A key press that ends a wait writes the code to the wait's target alone. -/
theorem reg_keyPressed {s : State} (c : Fin 16) (hw : s.waiting = true) (k : Reg) :
    (s.keyPressed c).reg k = if k = s.waitTarget then BitVec.ofNat 8 c.val else s.reg k := by
  simp only [State.keyPressed, hw, if_true]
  exact State.reg_setReg _ _ k _

/-- A key press adds its code to the keys. -/
theorem keys_keyPressed (s : State) (c : Fin 16) : (s.keyPressed c).keys = s.keys.set c.val true := by
  rw [s.keyPressed_rest c]

theorem toNat_keyCode (c : Fin 16) : (BitVec.ofNat 8 c.val).toNat = c.val :=
  Nat.mod_eq_of_lt (by omega)

/-- Settles O55: the key set, the end of the wait, and the refusal of a code above 15. -/
theorem keyEventsFollowTheirContract : Obligations.KeyEventsFollowTheirContract := by
  intro c s
  refine ⟨fun hc => ?_, fun hc => ?_, fun hc => ?_⟩
  · have hkeys := keys_keyPressed s ⟨c, hc⟩
    have hrest := s.keyPressed_rest ⟨c, hc⟩
    rw [← hkeys] at hrest
    refine ⟨s.keyPressed ⟨c, hc⟩, dif_pos hc, fun k => ?_, hrest, fun hw => ⟨?_, fun k hk => ?_⟩, fun hw => ?_⟩
    · rw [pressed_of_keys hc hkeys]
      by_cases hk : k.toNat = c <;> simp [hk]
    · rw [reg_keyPressed _ hw, if_pos rfl]
      exact toNat_keyCode ⟨c, hc⟩
    · rw [reg_keyPressed _ hw, if_neg hk]
    · exact ((StoppedFrom.keyPressed s ⟨c, hc⟩).noWait hw).2
  · refine ⟨_, dif_pos hc, fun k => ?_, rfl⟩
    rw [pressed_of_keys hc rfl]
    by_cases hk : k.toNat = c <;> simp [hk]
  · exact ⟨dif_neg (Nat.not_lt.2 hc), dif_neg (Nat.not_lt.2 hc)⟩

/-! ## The key wait from end to end -/

/-- What may differ in a machine that has waited: the keys, the timers and the outputs. -/
def WaitedFrom (s t : State) : Prop :=
  t = { s with keys := t.keys, DT := t.DT, ST := t.ST, changes := t.changes, stepResult := t.stepResult }

/-- A held machine stays as it is but for those, through steps, ticks and releases (44_keyboard_timers.md R163). -/
theorem trace_waiting {es : List Stimulus} {s : State} (hf : s.fault = false) (hp : s.pc.toNat ≤ 0xFFE) (hw : Held s)
    (hes : ∀ e ∈ es, e = .step ∨ e = .timerTick ∨ ∃ k, k < 16 ∧ e = .keyUp k) :
    ∃ t, trace es s = .next t ∧ WaitedFrom s t := by
  induction es generalizing s with
  | nil => exact ⟨s, rfl, rfl⟩
  | cons e es ih =>
    obtain ⟨u, hu, hsu⟩ : ∃ u, transition e s = .next u ∧ WaitedFrom s u := by
      rcases hes e (List.mem_cons_self ..) with rfl | rfl | ⟨k, hk, rfl⟩
      · exact ⟨_, heldStepChangesNothing s hf hp hw, rfl⟩
      · exact ⟨_, rfl, rfl⟩
      · exact ⟨_, dif_pos hk, rfl⟩
    rw [WaitedFrom] at hsu
    obtain ⟨t, ht, hut⟩ := ih (s := u) (by rw [hsu]; exact hf) (by rw [hsu]; exact hp) (by rw [hsu]; exact hw)
      fun e he => hes e (List.mem_cons_of_mem _ he)
    refine ⟨t, by rw [trace, hu]; exact ht, ?_⟩
    rw [WaitedFrom] at hut ⊢
    rw [hut, hsu]

/-- The state after a step of `LD Vx, K`. -/
def waitSet (x : Reg) (s : State) : State := ({ s with waiting := true, waitTarget := x }).advance.finish s.fb

/-- A machine `t` whose wait by `LD Vx, K` at `s` has ended with the code `c`. -/
structure WaitEnded (x : Reg) (c : Nat) (s t : State) : Prop where
  target : (t.reg x).toNat = c
  others : ∀ k, k ≠ x → t.reg k = s.reg k
  running : Running t
  pc : t.pc = s.pc + 2
  rest : t.I = s.I ∧ t.mem = s.mem ∧ t.stack = s.stack ∧ t.sp = s.sp ∧ t.fb = s.fb

/-- A key press ends the wait. -/
theorem WaitEnded.keyPressed {x : Reg} {s u : State} (c : Fin 16) (hf : s.fault = false)
    (hpc : (s.pc + 2).toNat ≤ 0xFFE) (hu : WaitedFrom (waitSet x s) u) : WaitEnded x c.val s (u.keyPressed c) := by
  have hw : u.waiting = true := by rw [hu]; rfl
  have htarget : u.waitTarget = x := by rw [hu]; rfl
  have hreg : ∀ k, u.reg k = s.reg k := fun k => by rw [hu]; rfl
  constructor
  case target =>
    rw [reg_keyPressed c hw, htarget, if_pos rfl]
    exact toNat_keyCode c
  case others =>
    intro k hk
    rw [reg_keyPressed c hw, htarget, if_neg hk, hreg]
  all_goals rw [u.keyPressed_rest c, hu]
  case running => exact ⟨hf, hpc, rfl⟩
  case pc => rfl
  case rest => exact ⟨rfl, rfl, rfl, rfl, rfl⟩

/-- Settles O57: the step sets the wait, the machine waits, and the key press ends the wait with its code. -/
theorem keyWaitEndsWithTheFirstKeyDown : Obligations.KeyWaitEndsWithTheFirstKeyDown := by
  intro x c es s hr hpc hd hc hes
  have hstep : step s = .next (waitSet x s) := step_of_exec hr hd rfl
  have hpc' : (s.pc + 2).toNat ≤ 0xFFE := by bv_omega
  obtain ⟨u, hu, hwaited⟩ := trace_waiting (s := waitSet x s) hr.notFaulted hpc' rfl hes
  have hwait : trace (.step :: es) s = .next u := by
    rw [trace, transition, hstep]
    exact hu
  have hkey : keyDown c u = .next (u.keyPressed ⟨c, hc⟩) := dif_pos hc
  obtain ⟨target, others, running, pc, rest⟩ := WaitEnded.keyPressed ⟨c, hc⟩ hr.notFaulted hpc' hwaited
  refine ⟨_, ?_, target, others, running, pc, rest⟩
  rw [trace_append _ _ hwait, trace, transition, hkey]
  rfl

/-! ## Construction (20_memory.md R66, 10_state.md R40) -/

/-- The constructed machine: the reset state with the image written from 0x200 on. -/
theorem construct_ok {image : List Byte} (h : image.length ≤ 3584) : construct image =
    .next { State.reset with mem := State.reset.mem.writeBytes 0x200 image } := if_pos h

/-- What every byte of the constructed machine reads as: the image in its place, and the reset contents elsewhere. -/
theorem read_construct {image : List Byte} (h : image.length ≤ 3584) (a : Nat) :
    (State.reset.mem.writeBytes 0x200 image).read a =
      if 0x200 ≤ a ∧ a < 0x200 + image.length then image.getD (a - 0x200) 0 else Memory.unlisted a :=
  Memory.read_writeBytes 0x200 image rfl (by omega) a

/-- Settles O58: the bytes are the image's, the font's and zero, and all else is the reset state's. -/
theorem constructionPlacesFontAndImage : Obligations.ConstructionPlacesFontAndImage := by
  intro image
  refine ⟨fun h => ?_, fun h => if_neg (Nat.not_le.2 h)⟩
  refine ⟨_, construct_ok h, rfl, fun a ha => ?_, fun k hk => ?_, fun a ha hout => ?_, ?_, rfl, rfl, rfl, rfl, ?_, rfl, rfl,
    rfl, fun c => ?_, Framebuffer.pixel_clear, rfl⟩
  · refine (read_construct h a).trans ((if_neg (by omega)).trans (if_pos ha))
  · refine (read_construct h (0x200 + k)).trans ((if_pos (by omega)).trans ?_)
    simp [hk]
  · exact (read_construct h a).trans ((if_neg (by omega)).trans (if_neg (by omega)))
  · intro k
    simp [State.reg, State.reset]
  · intro k
    simp [State.slot, State.reset]
  · simp [State.pressed, State.reset]

/-! ## The four parameters (92_eei_decisions.md) -/

/-- Writes of two registers commute. -/
theorem setReg_comm (s : State) {x y : Reg} (h : x ≠ y) (v w : Byte) :
    (s.setReg x v).setReg y w = (s.setReg y w).setReg x v := by
  simp only [State.setReg]
  rw [Vector.set_comm _ _ fun e => h (Fin.ext e)]

/-- Where `VF` is no operand, the orders of the flag write and the result write come to the same. -/
theorem flagAndResult_order {x : Reg} (hx : x ≠ .VF) (o : VfOrder) {f r : State → Byte} {s : State}
    (hr : ∀ v, r (s.setReg .VF v) = r s) : flagAndResult o x f r s = flagAndResult .sequential x f r s := by
  cases o with
  | sequential => rfl
  | latched => rw [flagAndResult, flagAndResult, hr, setReg_comm s hx]

/-- So the instructions that write both answer alike. -/
theorem next_flagAndResult_order {x : Reg} (hx : x ≠ .VF) (o : VfOrder) {f r : State → Byte} {s : State}
    (hr : ∀ v, r (s.setReg .VF v) = r s) :
    (.next (flagAndResult o x f r s).advance : Result) = .next (flagAndResult .sequential x f r s).advance := by
  rw [flagAndResult_order hx o hr]

/-- In memory an access lands where it is addressed, under either policy. -/
theorem landing_in_memory (p : OobPolicy) {a : Nat} (h : a ≤ 0xFFF) : landing p a = a := by
  cases p with
  | fault => rfl
  | wrap4096 => exact Nat.mod_eq_of_lt (show a < 4096 by omega)

/-- In memory both policies do what the access does. -/
theorem ifInRange_in_memory {last : Nat} (h : last ≤ 0xFFF) (p : OobPolicy) {s done done' : State} (hd : done = done') :
    ifInRange p last s done = ifInRange .fault last s done' := by
  rw [ifInRange_ok h, ifInRange_ok h, hd]

/-- The addresses of an access rise. -/
theorem dataAddr_mono (s : State) {j k : Nat} (h : j ≤ k) : s.dataAddr j ≤ s.dataAddr k := Nat.add_le_add_left h _

/-- Bytes are stored alike where the last of them lies in memory. -/
theorem storeFrom_policy (p : OobPolicy) {s : State} {last : Nat} {vs : List Byte} (h : s.dataAddr last ≤ 0xFFF)
    (hvs : vs.length = last + 1) : storeFrom p (s.dataAddr 0) s.mem vs = storeFrom .fault (s.dataAddr 0) s.mem vs := by
  have hend : s.dataAddr 0 + vs.length ≤ 4096 := by
    simp only [State.dataAddr] at h ⊢
    omega
  rw [storeFrom_in_memory p _ _ _ hend, storeFrom_in_memory .fault _ _ _ hend]

/-- Registers are loaded alike from addresses in memory. -/
theorem loadEach_in_memory (p : OobPolicy) {s : State} {ks : List Reg} (h : ∀ k ∈ ks, s.dataAddr k.val ≤ 0xFFF) :
    loadEach p s ks = loadEach .fault s ks := by
  induction ks generalizing s with
  | nil => rfl
  | cons k ks ih =>
    have hk : landing p (s.dataAddr k.val) = s.dataAddr k.val := landing_in_memory p (h k (List.mem_cons_self ..))
    calc loadEach p s (k :: ks)
      _ = loadEach p (s.setReg k (s.readByte (landing p (s.dataAddr k.val)))) ks := rfl
      _ = loadEach p (s.setReg k (s.readByte (s.dataAddr k.val))) ks := by rw [hk]
      _ = loadEach .fault (s.setReg k (s.readByte (s.dataAddr k.val))) ks :=
        ih fun k' hk' => h k' (List.mem_cons_of_mem _ hk')

/-- A sprite in memory has the same bytes under either policy. -/
theorem spriteBytes_in_memory (p : OobPolicy) {s : State} {n : Nibble} (h : ∀ r < n.val, s.dataAddr r ≤ 0xFFF) :
    s.spriteBytes p n = s.spriteBytes .fault n :=
  List.map_congr_left fun r hr => congrArg s.readByte (landing_in_memory p (h r (List.mem_range.1 hr)))

/-- A sprite is drawn alike from memory. -/
theorem drawn_in_memory (p : OobPolicy) {x y : Reg} {n : Nibble} {s : State} (h : ∀ r < n.val, s.dataAddr r ≤ 0xFFF) :
    drawn p x y n s = drawn .fault x y n s := by
  rw [drawn, drawn, spriteBytes_in_memory p h]

/-- A digit is its own glyph index, masked or not. -/
theorem glyphIndex_digit (m : FontIndexMask) {v : Byte} (h : v.toNat ≤ 15) : glyphIndex m v = v := by
  cases m with
  | none => rfl
  | lowNibble =>
    refine BitVec.eq_of_toNat_eq ?_
    rw [glyphIndex, BitVec.toNat_and]
    exact (Nat.and_two_pow_sub_one_eq_mod v.toNat 4).trans (Nat.mod_eq_of_lt (by omega))

/-- The instructions whose meaning takes a parameter do the same at every value, away from the point it decides. -/
theorem execWith_eq_exec (p : Params) {i : Instr} {s : State} (hin : AccessInMemory i s)
    (hVF : usesVFAsOperand i = false) (hdigit : ∀ x, i = .ldF x → (s.reg x).toNat ≤ 15) :
    execWith p i s = exec i s := by
  have afterVF : ∀ k : Reg, k ≠ .VF → ∀ v, (s.setReg .VF v).reg k = s.reg k := fun k hk v => State.reg_setReg_ne s v hk
  cases i with
  | sub x y | subn x y =>
    obtain ⟨hx, hy⟩ : x ≠ .VF ∧ y ≠ .VF := by simpa [usesVFAsOperand] using hVF
    exact next_flagAndResult_order hx p.vfOrder fun v => by rw [afterVF x hx, afterVF y hy]
  | shr x | shl x =>
    have hx : x ≠ .VF := by simpa [usesVFAsOperand] using hVF
    exact next_flagAndResult_order hx p.vfOrder fun v => by rw [afterVF x hx]
  | drw x y n =>
    have hsprite : ∀ r < n.val, s.dataAddr r ≤ 0xFFF := fun r hr =>
      (dataAddr_mono s (Nat.le_sub_one_of_lt hr)).trans (hin _ (if_neg (by omega)))
    show execDrwWith p.oob x y n s = execDrwWith .fault x y n s
    rw [execDrwWith_in_memory _ hin, execDrwWith_in_memory _ hin, drawn_in_memory p.oob hsprite]
  | ldF x =>
    show execLdFWith p.fontMask x s = execLdFWith .none x s
    rw [execLdFWith, execLdFWith, glyphIndex_digit _ (hdigit x rfl), glyphIndex_digit _ (hdigit x rfl)]
  | ldB x =>
    have hlast : s.dataAddr 2 ≤ 0xFFF := hin 2 rfl
    exact ifInRange_in_memory hlast p.oob (congrArg (fun m => ({ s with mem := m } : State).advance)
      (storeFrom_policy p.oob hlast rfl))
  | storeRegs x =>
    have hlast : s.dataAddr x.val ≤ 0xFFF := hin _ rfl
    exact ifInRange_in_memory hlast p.oob (congrArg (fun m => ({ s with mem := m } : State).advance)
      (storeFrom_policy p.oob hlast (by rw [List.length_map, length_regsUpTo])))
  | loadRegs x =>
    have hlast : s.dataAddr x.val ≤ 0xFFF := hin _ rfl
    exact ifInRange_in_memory hlast p.oob (congrArg State.advance
      (loadEach_in_memory p.oob fun k hk => (dataAddr_mono s (mem_regsUpTo.1 hk)).trans hlast))
  | _ => rfl

/-- What an opcode does depends on the meaning of the instruction it decodes to alone. -/
theorem runOpcode_congr {meaning meaning' : Instr → State → Result} {op : Word} {s : State}
    (h : ∀ i, decodeWord op = .ok i → meaning i s = meaning' i s) :
    runOpcode meaning op s = runOpcode meaning' op s := by
  rw [runOpcode, runOpcode]
  cases hd : decodeWord op with
  | ok i => exact h i hd
  | error e => rfl

/-- What a cycle does depends on the wait policy only while a wait is pending. -/
theorem cycle_congr {meaning meaning' : Instr → State → Result} {holds holds' : Bool} {s : State}
    (hw : s.waiting = true → holds = holds') (hm : runOpcode meaning s.fetch s = runOpcode meaning' s.fetch s) :
    cycle meaning holds s = cycle meaning' holds' s := by
  have hheld : (s.waiting && holds) = (s.waiting && holds') := by
    cases h : s.waiting with
    | false => rfl
    | true => rw [hw h]
  rw [cycle, cycle, hheld, hm]

/-- Settles O59: the meanings agree, and so do the cycles around them. -/
theorem parametersMatterOnlyAtTheirPoints : Obligations.ParametersMatterOnlyAtTheirPoints := by
  refine ⟨fun s => cycle_congr (fun _ => rfl) (runOpcode_congr fun i _ => execWith_hardware i s), fun p s hw hi => ?_⟩
  refine cycle_congr hw (runOpcode_congr fun i hd => ?_)
  obtain ⟨hin, hVF, hdigit⟩ := hi i hd
  exact execWith_eq_exec p hin hVF hdigit

end Sys2Proof.Machine
